-- ==== Sys2Proof/Word.lean ====
section
/-! DEFINITION. The word types of the LC-3 interpreter core (00_scope.md R6, R9; 10_state.md R30). -/

namespace Sys2Proof

/-- A 16-bit unit of storage and computation, an unsigned number 0..65535; `+`, `-`, `~~~` and `&&&` on it are
modulo 2^16 and bitwise on all 16 bits (00_scope.md R9). It is also a word address (20_memory.md R70). -/
abbrev Word := BitVec 16

/-- A byte, the unit of the console (00_scope.md R15) and of a program image (70_reset_and_hazards.md R293). -/
abbrev Byte := BitVec 8

/-- The number of a general register, R0 to R7 (10_state.md R30). -/
abbrev Reg := Fin 8

end Sys2Proof
end

