-- ==== Sys2Proof/Config.lean ====
section
/-! DEFINITION. What is fixed for the machine: the constants of 00_scope.md R6 and the parameters of R7. -/

namespace Sys2Proof

/-- UNUSED_BITS_POLICY, what a non-canonical unused instruction bit does (30_encoding.md R115; decision D4). -/
inductive UnusedBitsPolicy where
  /-- Unused bits are ignored; the instruction executes as if they were canonical. The spec's default. -/
  | ignore
  /-- A non-canonical unused bit raises FatalDecodeError at decode. -/
  | fatal
deriving DecidableEq, Repr

/-- The parameters of 00_scope.md R7 that a step reads. R7: "A model takes them as arguments". They stand in the state
(`State.params`), so that a statement about every state is a statement about every value of them (assumption log 6). -/
structure Params where
  /-- UNUSED_BITS_POLICY (30_encoding.md R115). -/
  unusedBits : UnusedBitsPolicy
  /-- PROMPT_TEXT, what IN writes before it reads (43_trap.md R217; decision D12: OPEN). -/
  promptText : List Byte
  /-- HALT_TEXT, what HALT writes (43_trap.md R219; decision D13: OPEN). -/
  haltText : List Byte
deriving DecidableEq, Repr

namespace Config

/-- START_PC (00_scope.md R6; 10_state.md R34). -/
def startPc : Word := 0x3000#16

/-- KBSR_ADDR (00_scope.md R6; 20_memory.md R76). -/
def kbsrAddr : Word := 0xFE00#16

/-- KBDR_ADDR (00_scope.md R6; 20_memory.md R78). -/
def kbdrAddr : Word := 0xFE02#16

/-- KBSR_READY, the value of KBSR after a poll that found a key (00_scope.md R6; 20_memory.md R77). -/
def kbsrReady : Word := 0x8000#16

/-- MEM_WORDS (00_scope.md R6; 20_memory.md R70). -/
def memWords : Nat := 65536

/-- What a word of memory that nothing has written reads as: memory is zero-initialised (20_memory.md R72). -/
def memInit : Word := 0x0000#16

/-- INIT_GPR, the value of R0 to R7 at reset. DESIGN CHOICE, unsafe: the source states none; the spec decides 0x0000
(10_state.md R33, decision D5; assumption log 3). -/
def initGpr : Word := 0x0000#16

/-- The spec's default of UNUSED_BITS_POLICY. DESIGN CHOICE, unsafe (00_scope.md R7, decision D4; assumption log 4). -/
def defaultPolicy : UnusedBitsPolicy := .ignore

/-- PROMPT_TEXT of the machine after reset: OPEN in the spec, so it has no body and nothing can be proved of it
(decision D12; assumption log 5). Safe. -/
opaque promptText : List Byte

/-- HALT_TEXT of the machine after reset: OPEN in the spec, so it has no body and nothing can be proved of it
(decision D13; assumption log 5). Safe. -/
opaque haltText : List Byte

end Config

end Sys2Proof
end

