-- ==== Sys2Proof/Machine/State.lean ====
section
/-! DEFINITION. The state of the core, its reset value, and the reasons a step can stop (10_state.md). -/

namespace Sys2Proof.Machine

/-- The condition-flag register: exactly one of NEG, ZERO, POS (10_state.md R37). -/
inductive Cond where
  | n
  | z
  | p
deriving DecidableEq, Repr

/-- The run state (10_state.md R40). Every value but `running` is final (R42). -/
inductive RunState where
  | running
  | halted
  | faultDecode
  | faultTrap
  | terminated
deriving DecidableEq, Repr

/-- The kind of a fatal error (60_exceptions.md R252). -/
inductive FaultKind where
  | decode
  | trap
deriving DecidableEq, Repr

/-- What a fatal error records (60_exceptions.md R252; the record is the spec's decision D16, assumption log 18). -/
structure FaultRecord where
  /-- FatalDecodeError or FatalTrapError. -/
  kind : FaultKind
  /-- The instruction word `ir`. -/
  word : Word
  /-- The address `ia` the word was fetched from. -/
  addr : Word
  /-- The trap vector for `trap`; 0 for `decode`. -/
  vector : Byte
deriving DecidableEq, Repr

/-- The service the core is still inside of at the end of a step. `getc` and `inEcho`: held in ConsoleRead (10_state.md R50;
assumption log 8). `puts` and `putsp`: a string walk that found no zero word and goes on for ever (43_trap.md R216;
assumption log 9). -/
inductive Pending where
  | getc
  | inEcho
  | puts
  | putsp
deriving DecidableEq, Repr

/-- Memory: (address, word) pairs, addresses strictly rising, no pair holding what an unlisted address reads as. The spec's
unit of memory is the 16-bit word at a word address (20_memory.md R70; assumption log 1). -/
abbrev Memory := List (Nat × Word)

/-- Everything the spec gives the core (10_state.md, head), with the parameters a step reads. -/
structure State where
  /-- R0 to R7 (R30). -/
  regs : Vector Word 8
  /-- The program counter, a word address (R34). -/
  pc : Word
  /-- The condition flags (R37). -/
  cond : Cond
  /-- The run state (R40). -/
  run : RunState
  /-- Why the run stopped (R41). -/
  fault : Option FaultRecord
  /-- The 65536 words, KBSR and KBDR among them (20_memory.md R70, R76, R78). -/
  mem : Memory
  /-- `console.in`, oldest byte first (R44). -/
  consoleIn : List Byte
  /-- `console.out`, oldest byte first (R44). -/
  consoleOut : List Byte
  /-- The unfinished service, if the core is inside one (R50). -/
  pending : Option Pending
  /-- The model's own field: the parameters of 00_scope.md R7 (assumption log 6). No step changes it. -/
  params : Params
deriving DecidableEq, Repr

/-- The machine right after reset with no image loaded (70_reset_and_hazards.md R290, R291). `State.launch` loads images. -/
def State.reset : State where
  regs := Vector.replicate 8 Config.initGpr
  pc := Config.startPc
  cond := .z
  run := .running
  fault := none
  mem := []
  consoleIn := []
  consoleOut := []
  pending := none
  params :=
    { unusedBits := Config.defaultPolicy
      promptText := Config.promptText
      haltText := Config.haltText }

/-- Why a step gives no next state. -/
inductive Fault where
  /-- Raised by `step` alone, when `run` is not RUNNING: "From them the core takes no step, and no part of the state changes
  again" (10_state.md R42; assumption log 10). Safe: the core has no step there. No instruction raises it. -/
  | stopped (r : RunState)
deriving DecidableEq, Repr

/-- Why an instruction has no meaning. -/
inductive Refusal where
  /-- An arm of `exec` whose instruction has no meaning yet, by its mnemonic. Safe: the model stops. No arm raises it now. -/
  | notModelled (mnemonic : String)
deriving DecidableEq, Repr

end Sys2Proof.Machine
end

