-- ==== Sys2Proof/Machine/Ops.lean ====
section
/-! DEFINITION. The named operations over registers, memory, the keyboard and the console, raising a fatal error, and the
instruction fetch (00_scope.md R12 to R16; 10_state.md R46, R60 to R62; 20_memory.md R74 to R77; 60_exceptions.md R252). -/

namespace Sys2Proof.Machine

/-! Registers and the other plain fields. -/

/-- `x[r]` (00_scope.md R12). No register is hard-wired (10_state.md R30). -/
def State.getReg (s : State) (r : Reg) : Word := s.regs[r]

/-- `x[r] <- v` (00_scope.md R12). -/
def State.setReg (s : State) (r : Reg) (v : Word) : State := { s with regs := s.regs.set r v }

/-- `pc <- v` (00_scope.md R12). -/
def State.setPc (s : State) (v : Word) : State := { s with pc := v }

/-- `cond <- c`; only `State.setcc` uses it (10_state.md R38). -/
def State.setCond (s : State) (c : Cond) : State := { s with cond := c }

/-- `run <- r`. -/
def State.setRun (s : State) (r : RunState) : State := { s with run := r }

/-- The core is inside the service `p`, or inside none. -/
def State.setPending (s : State) (p : Option Pending) : State := { s with pending := p }

/-- The link write of JSR, JSRR and TRAP: R7 gets `pc+`, and `cond` is not touched (10_state.md R31, R32; 90_conflicts.md C5). -/
def State.link (s : State) : State := s.setReg 7 s.pc

/-! Memory. -/

/-- The word at an address; an unlisted address reads as the reset contents (20_memory.md R72). -/
def Memory.read : Memory → Nat → Word
  | [], _ => Config.memInit
  | (k, v) :: m, a => if k = a then v else Memory.read m a

/-- Put `(a, v)` in its place in the rising order, in place of any pair for `a` found there. -/
def Memory.insert : Memory → Nat → Word → Memory
  | [], a, v => [(a, v)]
  | (k, x) :: m, a, v =>
    if a < k then (a, v) :: (k, x) :: m
    else if a = k then (a, v) :: m
    else (k, x) :: Memory.insert m a v

/-- Write a word: the pair for `a` goes where the value is what an unlisted address reads as. -/
def Memory.write (m : Memory) (a : Nat) (v : Word) : Memory :=
  if v = Config.memInit then m.filter (fun c => c.1 ≠ a) else Memory.insert m a v

/-- The canonical form: addresses strictly rising and below MEM_WORDS, no pair equal to what an unlisted address reads as. -/
abbrev Memory.wf (m : Memory) : Prop :=
  m.Pairwise (fun c d => c.1 < d.1) ∧ ∀ c ∈ m, c.1 < Config.memWords ∧ c.2 ≠ Config.memInit

/-- `RawRead(a)` = `M[a]`, with no side effect (00_scope.md R12, R13). -/
def State.rawRead (s : State) (a : Word) : Word := Memory.read s.mem a.toNat

/-- `MemWrite(a, 1, v)`, the bus write: an unconditional store at every address (20_memory.md R75). -/
def State.busWrite (s : State) (a v : Word) : State := { s with mem := Memory.write s.mem a.toNat v }

/-! The console (10_state.md R60 to R62). -/

/-- `ConsolePoll()`: is a byte waiting (10_state.md R60). -/
def State.consolePoll (s : State) : Bool := !s.consoleIn.isEmpty

/-- `ConsoleRead()`: the first byte of `console.in`, which it removes; `none` where the core would be held (10_state.md R61). -/
def State.consoleRead (s : State) : Option (Byte × State) :=
  match s.consoleIn with
  | [] => none
  | b :: rest => some (b, { s with consoleIn := rest })

/-- `ConsoleWrite(b)` for each byte of `bs` in order (10_state.md R62). -/
def State.consoleWrite (s : State) (bs : List Byte) : State := { s with consoleOut := s.consoleOut ++ bs }

/-- `zext_16(b)` (00_scope.md R11; decision D11). -/
def zext (b : Byte) : Word := b.zeroExtend 16

/-! The keyboard and the bus read. -/

/-- `KeyboardPoll()` (20_memory.md R77; decisions D7 and D8, assumption log 15). -/
def State.keyboardPoll (s : State) : State :=
  match s.consoleRead with
  | some (b, s') => (s'.busWrite Config.kbsrAddr Config.kbsrReady).busWrite Config.kbdrAddr (zext b)
  | none => s.busWrite Config.kbsrAddr 0x0000#16

/-- The state a bus read of `a` leaves: at KBSR it polls the keyboard (20_memory.md R74). -/
def State.afterRead (s : State) (a : Word) : State := if a = Config.kbsrAddr then s.keyboardPoll else s

/-- `MemRead(a, 1)`, the bus read: the value `M[a]` after any change the poll made, and the state (20_memory.md R74). -/
def State.busRead (s : State) (a : Word) : Word × State := ((s.afterRead a).rawRead a, s.afterRead a)

/-! Fatal errors: the one exception entry of the core (60_exceptions.md R252, R253). There is no return from one (R266). -/

/-- The run state a fatal error of a kind moves to (60_exceptions.md R252). -/
def FaultKind.runState : FaultKind → RunState
  | .decode => .faultDecode
  | .trap => .faultTrap

/-- The numeric code of a kind (60_exceptions.md R252). -/
def FaultKind.code : FaultKind → Nat
  | .decode => 1
  | .trap => 2

/-- `raise`: `run` moves to the fault state and the record is written; nothing already changed is undone (00_scope.md R16;
60_exceptions.md R252, R253). `pc` holds the incremented PC, so the instruction's address is `pc - 1`. -/
def State.raiseFatal (s : State) (kind : FaultKind) (word : Word) (vector : Byte) : State :=
  { s with
    run := kind.runState
    fault := some { kind := kind, word := word, addr := s.pc - 1#16, vector := vector } }

/-! Fetch. -/

/-- Fetch: the bus read at `pc`, then `pc <- ia + 1` (10_state.md R46; decision D6, assumption log 14). -/
def State.fetch (s : State) : Word × State := ((s.busRead s.pc).1, (s.busRead s.pc).2.setPc (s.pc + 1#16))

end Sys2Proof.Machine
end

