-- ==== Sys2Proof/Machine/Flags.lean ====
section
/-! DEFINITION. The condition flags: how they are set and how BR tests them (00_scope.md R14; 10_state.md R37, R38). -/

namespace Sys2Proof.Machine

/-- `cond` as a 3-bit value. PRESUMED, unsafe: the encoding the spec marks as general knowledge (10_state.md R37, decision
D3; assumption log 13). -/
def Cond.bits : Cond → BitVec 3
  | .n => 0b100#3
  | .z => 0b010#3
  | .p => 0b001#3

/-- The flag of a value: the zero test comes before the sign test (00_scope.md R14). -/
def condOf (v : Word) : Cond := if v = 0#16 then .z else if v.msb then .n else .p

/-- `setcc(r)`: the flags from register `r` as it stands after the write (00_scope.md R14). -/
def State.setcc (s : State) (r : Reg) : State := s.setCond (condOf (s.getReg r))

/-- `x[DR] <- v; setcc(DR)`, the end of every instruction of 10_state.md R31's "yes" rows. -/
def State.writeResult (s : State) (dr : Reg) (v : Word) : State := (s.setReg dr v).setcc dr

/-- Whether a BR with this mask is taken: `(mask & cond) != 0` (41_control.md R160, R161). -/
def taken (nzp : BitVec 3) (c : Cond) : Bool := nzp &&& c.bits != 0#3

end Sys2Proof.Machine
end

