-- ==== Sys2Proof/Machine/Operands.lean ====
section
/-! DEFINITION. The operand forms: sign-extended fields and the effective addresses (00_scope.md R10; 42_load_store.md R193). -/

namespace Sys2Proof.Machine

/-- `sext_N(f)` for a field already cut to N bits (00_scope.md R10). -/
def sext {n : Nat} (f : BitVec n) : Word := f.signExtend 16

/-- `pc+ + sext_9(f)`, modulo 2^16; during execute `pc` holds `pc+` (10_state.md R35; 42_load_store.md R193). -/
def State.pcRel9 (s : State) (off9 : BitVec 9) : Word := s.pc + sext off9

/-- `pc+ + sext_11(f)`, modulo 2^16 (30_encoding.md R111). -/
def State.pcRel11 (s : State) (off11 : BitVec 11) : Word := s.pc + sext off11

/-- `x[BaseR] + sext_6(f)`, modulo 2^16; the offset is not scaled (30_encoding.md R109; 42_load_store.md R193). -/
def State.baseOff6 (s : State) (baseR : Reg) (off6 : BitVec 6) : Word := s.getReg baseR + sext off6

end Sys2Proof.Machine
end

