-- ==== Sys2Proof/Machine/Control.lean ====
section
/-! DEFINITION. BR, NOP, JMP, RET, JSR and JSRR (41_control.md). `pc` holds `pc+` here; no delay slot exists (R166). -/

namespace Sys2Proof.Machine

/-- The effect of BR: the target if the mask meets `cond`, else `pc+` stays (41_control.md R160). -/
def State.branch (s : State) (nzp : BitVec 3) (off9 : BitVec 9) : State :=
  if taken nzp s.cond then s.setPc (s.pcRel9 off9) else s

/-- The effect of JMP: `pc <- x[BaseR]` (41_control.md R162). -/
def State.jump (s : State) (baseR : Reg) : State := s.setPc (s.getReg baseR)

/-- BR (41_control.md R160). -/
def execBr (nzp : BitVec 3) (off9 : BitVec 9) (s : State) : Host.Outcome State Fault Refusal :=
  .next (s.branch nzp off9)

/-- NOP, the word 0x0000: BR with the mask 000 and the offset 0 (30_encoding.md R117). -/
def execNop (s : State) : Host.Outcome State Fault Refusal :=
  .next (s.branch 0b000#3 0#9)

/-- JMP (41_control.md R162). -/
def execJmp (_uHi : BitVec 3) (baseR : Reg) (_uLo : BitVec 6) (s : State) : Host.Outcome State Fault Refusal :=
  .next (s.jump baseR)

/-- RET, the word 0xC1C0: JMP R7 (41_control.md R162; 30_encoding.md R122). -/
def execRet (s : State) : Host.Outcome State Fault Refusal :=
  .next (s.jump 7)

/-- JSR: R7 gets `pc+`, then `pc` gets `pc+ + sext_11` (41_control.md R163). -/
def execJsr (off11 : BitVec 11) (s : State) : Host.Outcome State Fault Refusal :=
  .next (s.link.setPc (s.pcRel11 off11))

/-- JSRR: R7 gets `pc+` first, then BaseR is read, so `JSRR R7` lands at `pc+` (41_control.md R164). -/
def execJsrr (_uHi : BitVec 2) (baseR : Reg) (_uLo : BitVec 6) (s : State) : Host.Outcome State Fault Refusal :=
  .next (s.link.jump baseR)

end Sys2Proof.Machine
end

