-- ==== Sys2Proof/Machine/LoadStore.lean ====
section
/-! DEFINITION. LD, LDI, LDR, LEA, ST, STI and STR (42_load_store.md). Every load reads through the bus, so an address of
0xFE00 polls the keyboard (20_memory.md R74). -/

namespace Sys2Proof.Machine

/-- `x[DR] <- MemRead(ea, 1); setcc(DR)`, the end of every load. -/
def State.loadFrom (s : State) (dr : Reg) (ea : Word) : State :=
  (s.busRead ea).2.writeResult dr (s.busRead ea).1

/-- LD (42_load_store.md R180). -/
def execLd (dr : Reg) (off9 : BitVec 9) (s : State) : Host.Outcome State Fault Refusal :=
  .next (s.loadFrom dr (s.pcRel9 off9))

/-- LDI: two bus reads, the pointer and then the data (42_load_store.md R181). -/
def execLdi (dr : Reg) (off9 : BitVec 9) (s : State) : Host.Outcome State Fault Refusal :=
  .next ((s.busRead (s.pcRel9 off9)).2.loadFrom dr (s.busRead (s.pcRel9 off9)).1)

/-- LDR (42_load_store.md R182). -/
def execLdr (dr baseR : Reg) (off6 : BitVec 6) (s : State) : Host.Outcome State Fault Refusal :=
  .next (s.loadFrom dr (s.baseOff6 baseR off6))

/-- LEA: no memory access; it sets the flags (42_load_store.md R183). -/
def execLea (dr : Reg) (off9 : BitVec 9) (s : State) : Host.Outcome State Fault Refusal :=
  .next (s.writeResult dr (s.pcRel9 off9))

/-- ST (42_load_store.md R190). -/
def execSt (sr : Reg) (off9 : BitVec 9) (s : State) : Host.Outcome State Fault Refusal :=
  .next (s.busWrite (s.pcRel9 off9) (s.getReg sr))

/-- STI: the pointer is read through the bus (42_load_store.md R191). -/
def execSti (sr : Reg) (off9 : BitVec 9) (s : State) : Host.Outcome State Fault Refusal :=
  .next ((s.busRead (s.pcRel9 off9)).2.busWrite (s.busRead (s.pcRel9 off9)).1 (s.getReg sr))

/-- STR (42_load_store.md R192). -/
def execStr (sr baseR : Reg) (off6 : BitVec 6) (s : State) : Host.Outcome State Fault Refusal :=
  .next (s.busWrite (s.baseOff6 baseR off6) (s.getReg sr))

end Sys2Proof.Machine
end

