-- ==== Sys2Proof/Machine/Operate.lean ====
section
/-! DEFINITION. ADD, AND and NOT (40_operate.md). Under UNUSED_BITS_POLICY = `fatal` the decode phase rejects their
non-canonical words before these meanings run (`decodeUnder`). -/

namespace Sys2Proof.Machine

/-- ADD, register mode (40_operate.md R140). -/
def execAddReg (dr sr1 : Reg) (_u : BitVec 2) (sr2 : Reg) (s : State) : Host.Outcome State Fault Refusal :=
  .next (s.writeResult dr (s.getReg sr1 + s.getReg sr2))

/-- ADD, immediate mode (40_operate.md R141). -/
def execAddImm (dr sr1 : Reg) (imm5 : BitVec 5) (s : State) : Host.Outcome State Fault Refusal :=
  .next (s.writeResult dr (s.getReg sr1 + sext imm5))

/-- AND, register mode (40_operate.md R143). -/
def execAndReg (dr sr1 : Reg) (_u : BitVec 2) (sr2 : Reg) (s : State) : Host.Outcome State Fault Refusal :=
  .next (s.writeResult dr (s.getReg sr1 &&& s.getReg sr2))

/-- AND, immediate mode: the immediate is sign-extended before the AND (40_operate.md R144). -/
def execAndImm (dr sr1 : Reg) (imm5 : BitVec 5) (s : State) : Host.Outcome State Fault Refusal :=
  .next (s.writeResult dr (s.getReg sr1 &&& sext imm5))

/-- NOT (40_operate.md R145). -/
def execNot (dr sr : Reg) (_u : BitVec 6) (s : State) : Host.Outcome State Fault Refusal :=
  .next (s.writeResult dr (~~~(s.getReg sr)))

end Sys2Proof.Machine
end

