-- ==== Sys2Proof/Syntax.lean ====
section
/-! DEFINITION. The instructions, one constructor per row of spec/opcode_table.json, in the table's order. -/

namespace Sys2Proof

/-- One instruction word with its fields cut out (30_encoding.md R102 to R112). `u` fields are the bits R115 calls unused:
they are kept, because a fatal error records the whole word (60_exceptions.md R252) and UNUSED_BITS_POLICY looks at them.
The last eight constructors are the alias rows of the table (R122), each the name of exactly one word (assumption log 11). -/
inductive Instr where
  /-- BR, `0000 nzp fffffffff` (41_control.md R160). -/
  | br (nzp : BitVec 3) (off9 : BitVec 9)
  /-- ADD, register mode, `0001 ddd sss 0 uu ttt` (40_operate.md R140). -/
  | addReg (dr sr1 : Reg) (u : BitVec 2) (sr2 : Reg)
  /-- ADD, immediate mode, `0001 ddd sss 1 iiiii` (40_operate.md R141). -/
  | addImm (dr sr1 : Reg) (imm5 : BitVec 5)
  /-- LD, `0010 ddd fffffffff` (42_load_store.md R180). -/
  | ld (dr : Reg) (off9 : BitVec 9)
  /-- ST, `0011 sss fffffffff` (42_load_store.md R190). -/
  | st (sr : Reg) (off9 : BitVec 9)
  /-- JSR, `0100 1 fffffffffff` (41_control.md R163). -/
  | jsr (off11 : BitVec 11)
  /-- JSRR, `0100 0 uu bbb uuuuuu` (41_control.md R164). -/
  | jsrr (uHi : BitVec 2) (baseR : Reg) (uLo : BitVec 6)
  /-- AND, register mode, `0101 ddd sss 0 uu ttt` (40_operate.md R143). -/
  | andReg (dr sr1 : Reg) (u : BitVec 2) (sr2 : Reg)
  /-- AND, immediate mode, `0101 ddd sss 1 iiiii` (40_operate.md R144). -/
  | andImm (dr sr1 : Reg) (imm5 : BitVec 5)
  /-- LDR, `0110 ddd bbb ffffff` (42_load_store.md R182). -/
  | ldr (dr baseR : Reg) (off6 : BitVec 6)
  /-- STR, `0111 sss bbb ffffff` (42_load_store.md R192). -/
  | str (sr baseR : Reg) (off6 : BitVec 6)
  /-- RTI, `1000 uuuuuuuuuuuu` (44_unimplemented.md R240). -/
  | rti (u : BitVec 12)
  /-- NOT, `1001 ddd sss uuuuuu` (40_operate.md R145). -/
  | not (dr sr : Reg) (u : BitVec 6)
  /-- LDI, `1010 ddd fffffffff` (42_load_store.md R181). -/
  | ldi (dr : Reg) (off9 : BitVec 9)
  /-- STI, `1011 sss fffffffff` (42_load_store.md R191). -/
  | sti (sr : Reg) (off9 : BitVec 9)
  /-- JMP, `1100 uuu bbb uuuuuu` (41_control.md R162). -/
  | jmp (uHi : BitVec 3) (baseR : Reg) (uLo : BitVec 6)
  /-- RES, `1101 xxxxxxxxxxxx` (44_unimplemented.md R241). -/
  | res (x : BitVec 12)
  /-- LEA, `1110 ddd fffffffff` (42_load_store.md R183). -/
  | lea (dr : Reg) (off9 : BitVec 9)
  /-- TRAP, `1111 uuuu vvvvvvvv` (43_trap.md R210). -/
  | trap (u : BitVec 4) (vect8 : BitVec 8)
  /-- RET, the word 0xC1C0: JMP R7 (30_encoding.md R122; 41_control.md R162). -/
  | ret
  /-- NOP, the word 0x0000: BR with an empty mask (30_encoding.md R117, R122; 41_control.md R160). -/
  | nop
  /-- GETC, the word 0xF020: TRAP x20 (43_trap.md R213). -/
  | getc
  /-- OUT, the word 0xF021: TRAP x21 (43_trap.md R214). -/
  | out
  /-- PUTS, the word 0xF022: TRAP x22 (43_trap.md R215). -/
  | puts
  /-- IN, the word 0xF023: TRAP x23 (43_trap.md R217). -/
  | inEcho
  /-- PUTSP, the word 0xF024: TRAP x24 (43_trap.md R218). -/
  | putsp
  /-- HALT, the word 0xF025: TRAP x25 (43_trap.md R219). -/
  | halt
deriving DecidableEq, Repr

end Sys2Proof
end

