-- ==== Sys2Proof/WellFormed.lean ====
section
/-! DEFINITION. Well-formed instructions: every word is named by exactly one of them. -/

namespace Sys2Proof

/-- A word that is an alias row of the opcode table is named by its alias constructor and by no other: BR's form excludes
the word 0x0000 (NOP), JMP's the word 0xC1C0 (RET), TRAP's the words 0xF020 to 0xF025 (the services) (30_encoding.md R122).
Every field of every other constructor may hold every value (30_encoding.md R113: "Decode is total"). -/
def Instr.wellFormed : Instr → Bool
  | .br nzp off9 => !(nzp == 0#3 && off9 == 0#9)
  | .jmp uHi baseR uLo => !(uHi == 0#3 && baseR == 7 && uLo == 0#6)
  | .trap u vect8 => !(u == 0#4 && (vect8 == 0x20#8 || vect8 == 0x21#8 || vect8 == 0x22#8 || vect8 == 0x23#8
      || vect8 == 0x24#8 || vect8 == 0x25#8))
  | .addReg _ _ _ _ => true
  | .addImm _ _ _ => true
  | .ld _ _ => true
  | .st _ _ => true
  | .jsr _ => true
  | .jsrr _ _ _ => true
  | .andReg _ _ _ _ => true
  | .andImm _ _ _ => true
  | .ldr _ _ _ => true
  | .str _ _ _ => true
  | .rti _ => true
  | .not _ _ _ => true
  | .ldi _ _ => true
  | .sti _ _ => true
  | .res _ => true
  | .lea _ _ => true
  | .ret => true
  | .nop => true
  | .getc => true
  | .out => true
  | .puts => true
  | .inEcho => true
  | .putsp => true
  | .halt => true

end Sys2Proof
end

