-- ==== Sys2Proof/Decode.lean ====
section
/-! DEFINITION. Decoding a word into an instruction, the unused-bits check, and the encoder (30_encoding.md). -/

namespace Sys2Proof

/-- The register a 3-bit field names (30_encoding.md R104, R105, R107). -/
def regOfBits (b : BitVec 3) : Reg := b.toFin

/-- The 3-bit field that names a register. -/
def regBits (r : Reg) : BitVec 3 := BitVec.ofFin r

/-- The register field whose lowest bit is bit `lo` of the word. -/
def regAt (w : Word) (lo : Nat) : Reg := regOfBits (w.extractLsb' lo 3)

/-- TRAP's words, the six services by their own names (30_encoding.md R112, R122). -/
def decodeTrap (w : Word) : Instr :=
  if w = 0xF020#16 then .getc
  else if w = 0xF021#16 then .out
  else if w = 0xF022#16 then .puts
  else if w = 0xF023#16 then .inEcho
  else if w = 0xF024#16 then .putsp
  else if w = 0xF025#16 then .halt
  else .trap (w.extractLsb' 8 4) (w.extractLsb' 0 8)

/-- Decode, pure and total (10_state.md R47; 30_encoding.md R113): bits 15 to 12 select the format (R101), then bit 5 for
ADD and AND and bit 11 for JSR and JSRR (R114). Fields are cut where R102 places them. PRESUMED, unsafe: the opcode
numbers and field positions the spec marks as general knowledge (R101, R102, decision D2; assumption log 12). -/
def decode (w : Word) : Instr :=
  match w.getLsbD 15, w.getLsbD 14, w.getLsbD 13, w.getLsbD 12 with
  | false, false, false, false => if w = 0x0000#16 then .nop else .br (w.extractLsb' 9 3) (w.extractLsb' 0 9)
  | false, false, false, true =>
    if w.getLsbD 5 then .addImm (regAt w 9) (regAt w 6) (w.extractLsb' 0 5)
    else .addReg (regAt w 9) (regAt w 6) (w.extractLsb' 3 2) (regAt w 0)
  | false, false, true, false => .ld (regAt w 9) (w.extractLsb' 0 9)
  | false, false, true, true => .st (regAt w 9) (w.extractLsb' 0 9)
  | false, true, false, false =>
    if w.getLsbD 11 then .jsr (w.extractLsb' 0 11)
    else .jsrr (w.extractLsb' 9 2) (regAt w 6) (w.extractLsb' 0 6)
  | false, true, false, true =>
    if w.getLsbD 5 then .andImm (regAt w 9) (regAt w 6) (w.extractLsb' 0 5)
    else .andReg (regAt w 9) (regAt w 6) (w.extractLsb' 3 2) (regAt w 0)
  | false, true, true, false => .ldr (regAt w 9) (regAt w 6) (w.extractLsb' 0 6)
  | false, true, true, true => .str (regAt w 9) (regAt w 6) (w.extractLsb' 0 6)
  | true, false, false, false => .rti (w.extractLsb' 0 12)
  | true, false, false, true => .not (regAt w 9) (regAt w 6) (w.extractLsb' 0 6)
  | true, false, true, false => .ldi (regAt w 9) (w.extractLsb' 0 9)
  | true, false, true, true => .sti (regAt w 9) (w.extractLsb' 0 9)
  | true, true, false, false =>
    if w = 0xC1C0#16 then .ret else .jmp (w.extractLsb' 9 3) (regAt w 6) (w.extractLsb' 0 6)
  | true, true, false, true => .res (w.extractLsb' 0 12)
  | true, true, true, false => .lea (regAt w 9) (w.extractLsb' 0 9)
  | true, true, true, true => decodeTrap w

/-- The unused bits hold the canonical values of 30_encoding.md R115's table (instructions without unused bits: true). -/
def Instr.canonical : Instr → Bool
  | .addReg _ _ u _ => u == 0#2
  | .andReg _ _ u _ => u == 0#2
  | .not _ _ u => u == 0b111111#6
  | .jmp uHi _ uLo => uHi == 0#3 && uLo == 0#6
  | .jsrr uHi _ uLo => uHi == 0#2 && uLo == 0#6
  | .trap u _ => u == 0#4
  | .rti u => u == 0#12
  | .br _ _ => true
  | .addImm _ _ _ => true
  | .ld _ _ => true
  | .st _ _ => true
  | .jsr _ => true
  | .andImm _ _ _ => true
  | .ldr _ _ _ => true
  | .str _ _ _ => true
  | .ldi _ _ => true
  | .sti _ _ => true
  | .res _ => true
  | .lea _ _ => true
  | .ret => true
  | .nop => true
  | .getc => true
  | .out => true
  | .puts => true
  | .inEcho => true
  | .putsp => true
  | .halt => true

/-- The two opcodes that are fatal whatever their other bits hold (30_encoding.md R116). -/
def Instr.fatalOpcode : Instr → Bool
  | .rti _ => true
  | .res _ => true
  | .br _ _ => false
  | .addReg _ _ _ _ => false
  | .addImm _ _ _ => false
  | .ld _ _ => false
  | .st _ _ => false
  | .jsr _ => false
  | .jsrr _ _ _ => false
  | .andReg _ _ _ _ => false
  | .andImm _ _ _ => false
  | .ldr _ _ _ => false
  | .str _ _ _ => false
  | .not _ _ _ => false
  | .ldi _ _ => false
  | .sti _ _ => false
  | .jmp _ _ _ => false
  | .lea _ _ => false
  | .trap _ _ => false
  | .ret => false
  | .nop => false
  | .getc => false
  | .out => false
  | .puts => false
  | .inEcho => false
  | .putsp => false
  | .halt => false

/-- Why the decode phase rejects a word, beside RTI and RES, which are instructions of the table of their own. -/
inductive DecodeError where
  /-- A non-canonical unused bit under UNUSED_BITS_POLICY = `fatal` (30_encoding.md R115; 60_exceptions.md R250). -/
  | unusedBits (w : Word)
deriving DecidableEq, Repr

/-- The decode phase under an UNUSED_BITS_POLICY (10_state.md R47). RTI and RES are found first and go on to their own
rules, which raise (60_exceptions.md R262 item 2). -/
def decodeUnder (policy : UnusedBitsPolicy) (w : Word) : Except DecodeError Instr :=
  if (decode w).fatalOpcode then .ok (decode w)
  else
    match policy with
    | .ignore => .ok (decode w)
    | .fatal => if (decode w).canonical then .ok (decode w) else .error (.unusedBits w)

/-- The word of an instruction (30_encoding.md R102, R122), bit 15 on the left. -/
def encode : Instr → Word
  | .br nzp off9 => 0b0000#4 ++ nzp ++ off9
  | .addReg dr sr1 u sr2 => 0b0001#4 ++ regBits dr ++ regBits sr1 ++ 0b0#1 ++ u ++ regBits sr2
  | .addImm dr sr1 imm5 => 0b0001#4 ++ regBits dr ++ regBits sr1 ++ 0b1#1 ++ imm5
  | .ld dr off9 => 0b0010#4 ++ regBits dr ++ off9
  | .st sr off9 => 0b0011#4 ++ regBits sr ++ off9
  | .jsr off11 => 0b0100#4 ++ 0b1#1 ++ off11
  | .jsrr uHi baseR uLo => 0b0100#4 ++ 0b0#1 ++ uHi ++ regBits baseR ++ uLo
  | .andReg dr sr1 u sr2 => 0b0101#4 ++ regBits dr ++ regBits sr1 ++ 0b0#1 ++ u ++ regBits sr2
  | .andImm dr sr1 imm5 => 0b0101#4 ++ regBits dr ++ regBits sr1 ++ 0b1#1 ++ imm5
  | .ldr dr baseR off6 => 0b0110#4 ++ regBits dr ++ regBits baseR ++ off6
  | .str sr baseR off6 => 0b0111#4 ++ regBits sr ++ regBits baseR ++ off6
  | .rti u => 0b1000#4 ++ u
  | .not dr sr u => 0b1001#4 ++ regBits dr ++ regBits sr ++ u
  | .ldi dr off9 => 0b1010#4 ++ regBits dr ++ off9
  | .sti sr off9 => 0b1011#4 ++ regBits sr ++ off9
  | .jmp uHi baseR uLo => 0b1100#4 ++ uHi ++ regBits baseR ++ uLo
  | .res x => 0b1101#4 ++ x
  | .lea dr off9 => 0b1110#4 ++ regBits dr ++ off9
  | .trap u vect8 => 0b1111#4 ++ u ++ vect8
  | .ret => 0xC1C0#16
  | .nop => 0x0000#16
  | .getc => 0xF020#16
  | .out => 0xF021#16
  | .puts => 0xF022#16
  | .inEcho => 0xF023#16
  | .putsp => 0xF024#16
  | .halt => 0xF025#16

/-- The instruction the decoder reads from a word whose bits are `w`, numbered as spec/opcode_table.json numbers them. An
instruction is one 16-bit word (30_encoding.md R100), so more than 16 bits are no instruction. The unused-bits policy is
the spec's default. -/
def decodeTableWord (nbits w : Nat) : Option Instr :=
  if nbits ≤ 16 then
    match decodeUnder Config.defaultPolicy (BitVec.ofNat 16 w) with
    | .ok i => some i
    | .error _ => none
  else none

end Sys2Proof
end

