-- ==== Sys2Proof/Machine/Trap.lean ====
section
/-! DEFINITION. TRAP and the six services (43_trap.md). A service runs inside the TRAP's step (R221); `pc` holds `pc+` and no
service changes it (R212, R222). -/

namespace Sys2Proof.Machine

/-- The six services (43_trap.md R210). -/
inductive Service where
  | getc
  | out
  | puts
  | inEcho
  | putsp
  | halt
deriving DecidableEq, Repr

/-- The service of a vector; `none` for the 250 unrecognized ones (43_trap.md R210, R220). -/
def serviceOf (v : BitVec 8) : Option Service :=
  if v = 0x20#8 then some .getc
  else if v = 0x21#8 then some .out
  else if v = 0x22#8 then some .puts
  else if v = 0x23#8 then some .inEcho
  else if v = 0x24#8 then some .putsp
  else if v = 0x25#8 then some .halt
  else none

/-! The blocking reads. -/

/-- The low byte of a word, `w[7:0]`. -/
def lowByte (w : Word) : Byte := w.extractLsb' 0 8

/-- The high byte of a word, `w[15:8]`. -/
def highByte (w : Word) : Byte := w.extractLsb' 8 8

/-- The end of GETC: the byte goes to R0 zero-extended and sets the flags; no echo (43_trap.md R213; decision D11,
assumption log 17). With no byte waiting the core is held inside the service (10_state.md R50; assumption log 8). -/
def State.readGetc (s : State) : State :=
  match s.consoleRead with
  | some (b, s') => s'.writeResult 0 (zext b)
  | none => s.setPending (some .getc)

/-- The end of IN: the byte is echoed, goes to R0 zero-extended and sets the flags (43_trap.md R217; decision D11). With no
byte waiting the core is held (10_state.md R50). -/
def State.readEcho (s : State) : State :=
  match s.consoleRead with
  | some (b, s') => (s'.consoleWrite [b]).writeResult 0 (zext b)
  | none => s.setPending (some .inEcho)

/-! The string walks. -/

/-- What PUTS writes for a non-zero word: its low byte (43_trap.md R215; decision D10, assumption log 16). -/
def putsBytes (w : Word) : List Byte := [lowByte w]

/-- What PUTSP writes for a non-zero word: the low byte always, then the high byte if it is not zero (43_trap.md R218). -/
def putspBytes (w : Word) : List Byte := if highByte w = 0#8 then [lowByte w] else [lowByte w, highByte w]

/-- A walk from `a` over at most `n` words by RawRead, the address advancing modulo 2^16: the bytes written, and whether a
zero word ended it (43_trap.md R215, R216, R218). -/
def State.walk (s : State) (emit : Word → List Byte) : Nat → Word → List Byte × Bool
  | 0, _ => ([], false)
  | n + 1, a =>
    if s.rawRead a = 0x0000#16 then ([], true)
    else (emit (s.rawRead a) ++ (s.walk emit n (a + 1#16)).1, (s.walk emit n (a + 1#16)).2)

/-- A string service from R0. A walk that meets a zero word ends inside the step. A walk over all 65536 words that meets none
never ends (43_trap.md R216): the core stays inside the service and goes on writing, one round of memory a step
(assumption log 9). -/
def State.writeString (s : State) (emit : Word → List Byte) (p : Pending) : State :=
  if (s.walk emit Config.memWords (s.getReg 0)).2
  then s.consoleWrite (s.walk emit Config.memWords (s.getReg 0)).1
  else (s.consoleWrite (s.walk emit Config.memWords (s.getReg 0)).1).setPending (some p)

/-! The services, after TRAP's write of R7. -/

/-- GETC (43_trap.md R213). -/
def State.serveGetc (s : State) : State := s.readGetc

/-- OUT: the low byte of R0 (43_trap.md R214). -/
def State.serveOut (s : State) : State := s.consoleWrite [lowByte (s.getReg 0)]

/-- PUTS (43_trap.md R215). -/
def State.servePuts (s : State) : State := s.writeString putsBytes .puts

/-- IN: the prompt is written before the read (43_trap.md R217). -/
def State.serveIn (s : State) : State := (s.consoleWrite s.params.promptText).readEcho

/-- PUTSP (43_trap.md R218). -/
def State.servePutsp (s : State) : State := s.writeString putspBytes .putsp

/-- HALT: HALT_TEXT, then `run <- HALTED` (43_trap.md R219). -/
def State.serveHalt (s : State) : State := (s.consoleWrite s.params.haltText).setRun .halted

/-- The service of TRAP's dispatch (43_trap.md R210). -/
def State.serve (s : State) : Service → State
  | .getc => s.serveGetc
  | .out => s.serveOut
  | .puts => s.servePuts
  | .inEcho => s.serveIn
  | .putsp => s.servePutsp
  | .halt => s.serveHalt

/-- The core goes on inside the service it has not finished: a held read is tried again, a walk goes on
(10_state.md R50; 43_trap.md R216). -/
def State.resume (s : State) : Pending → State
  | .getc => (s.setPending none).readGetc
  | .inEcho => (s.setPending none).readEcho
  | .puts => (s.setPending none).writeString putsBytes .puts
  | .putsp => (s.setPending none).writeString putspBytes .putsp

/-- FatalTrapError (43_trap.md R220; 60_exceptions.md R251, R252). -/
def State.raiseTrap (s : State) (word : Word) (vector : Byte) : State := s.raiseFatal .trap word vector

/-- TRAP: R7 gets `pc+` before the dispatch; an unrecognized vector is fatal and R7 keeps `pc+` (43_trap.md R210, R220). -/
def execTrap (u : BitVec 4) (vect8 : BitVec 8) (s : State) : Host.Outcome State Fault Refusal :=
  match serviceOf vect8 with
  | some v => .next (s.link.serve v)
  | none => .next (s.link.raiseTrap (encode (.trap u vect8)) vect8)

/-- GETC, TRAP x20 (43_trap.md R213). -/
def execGetc (s : State) : Host.Outcome State Fault Refusal := .next s.link.serveGetc

/-- OUT, TRAP x21 (43_trap.md R214). -/
def execOut (s : State) : Host.Outcome State Fault Refusal := .next s.link.serveOut

/-- PUTS, TRAP x22 (43_trap.md R215). -/
def execPuts (s : State) : Host.Outcome State Fault Refusal := .next s.link.servePuts

/-- IN, TRAP x23 (43_trap.md R217). -/
def execIn (s : State) : Host.Outcome State Fault Refusal := .next s.link.serveIn

/-- PUTSP, TRAP x24 (43_trap.md R218). -/
def execPutsp (s : State) : Host.Outcome State Fault Refusal := .next s.link.servePutsp

/-- HALT, TRAP x25 (43_trap.md R219). -/
def execHalt (s : State) : Host.Outcome State Fault Refusal := .next s.link.serveHalt

end Sys2Proof.Machine
end

