-- ==== Sys2Proof/Machine/Unimplemented.lean ====
section
/-! DEFINITION. RTI and RES: FatalDecodeError, whatever bits 11 to 0 hold (44_unimplemented.md). -/

namespace Sys2Proof.Machine

/-- FatalDecodeError for a word (60_exceptions.md R250, R252, R253). -/
def State.raiseDecode (s : State) (word : Word) : State := s.raiseFatal .decode word 0x00#8

/-- RTI (44_unimplemented.md R240). -/
def execRti (u : BitVec 12) (s : State) : Host.Outcome State Fault Refusal :=
  .next (s.raiseDecode (encode (.rti u)))

/-- RES (44_unimplemented.md R241). -/
def execRes (x : BitVec 12) (s : State) : Host.Outcome State Fault Refusal :=
  .next (s.raiseDecode (encode (.res x)))

end Sys2Proof.Machine
end

