-- ==== Sys2Proof/Machine/Dispatch.lean ====
section
/-! DEFINITION. The execute phase: one arm per instruction, each one call of its meaning (10_state.md R48). -/

namespace Sys2Proof.Machine

/-- Execute: `pc` holds the incremented PC (10_state.md R35). -/
def exec (i : Instr) (s : State) : Host.Outcome State Fault Refusal :=
  match i with
  | .br nzp off9 => Sys2Proof.Machine.execBr nzp off9 s
  | .addReg dr sr1 u sr2 => Sys2Proof.Machine.execAddReg dr sr1 u sr2 s
  | .addImm dr sr1 imm5 => Sys2Proof.Machine.execAddImm dr sr1 imm5 s
  | .ld dr off9 => Sys2Proof.Machine.execLd dr off9 s
  | .st sr off9 => Sys2Proof.Machine.execSt sr off9 s
  | .jsr off11 => Sys2Proof.Machine.execJsr off11 s
  | .jsrr uHi baseR uLo => Sys2Proof.Machine.execJsrr uHi baseR uLo s
  | .andReg dr sr1 u sr2 => Sys2Proof.Machine.execAndReg dr sr1 u sr2 s
  | .andImm dr sr1 imm5 => Sys2Proof.Machine.execAndImm dr sr1 imm5 s
  | .ldr dr baseR off6 => Sys2Proof.Machine.execLdr dr baseR off6 s
  | .str sr baseR off6 => Sys2Proof.Machine.execStr sr baseR off6 s
  | .rti u => Sys2Proof.Machine.execRti u s
  | .not dr sr u => Sys2Proof.Machine.execNot dr sr u s
  | .ldi dr off9 => Sys2Proof.Machine.execLdi dr off9 s
  | .sti sr off9 => Sys2Proof.Machine.execSti sr off9 s
  | .jmp uHi baseR uLo => Sys2Proof.Machine.execJmp uHi baseR uLo s
  | .res x => Sys2Proof.Machine.execRes x s
  | .lea dr off9 => Sys2Proof.Machine.execLea dr off9 s
  | .trap u vect8 => Sys2Proof.Machine.execTrap u vect8 s
  | .ret => Sys2Proof.Machine.execRet s
  | .nop => Sys2Proof.Machine.execNop s
  | .getc => Sys2Proof.Machine.execGetc s
  | .out => Sys2Proof.Machine.execOut s
  | .puts => Sys2Proof.Machine.execPuts s
  | .inEcho => Sys2Proof.Machine.execIn s
  | .putsp => Sys2Proof.Machine.execPutsp s
  | .halt => Sys2Proof.Machine.execHalt s

end Sys2Proof.Machine
end

