-- ==== Sys2Proof/Machine/Cycle.lean ====
section
/-! DEFINITION. The instruction cycle: fetch, decode, execute, or going on inside an unfinished service (10_state.md R45 to
R50). -/

namespace Sys2Proof.Machine

/-- Decode and execute a fetched word; `s` is the state after the fetch. A word the decode phase rejects raises
FatalDecodeError before any execute effect (10_state.md R47, R48). -/
def decodeAndExecute (w : Word) (s : State) : Host.Outcome State Fault Refusal :=
  match decodeUnder s.params.unusedBits w with
  | .ok i => exec i s
  | .error (.unusedBits w') => .next (s.raiseDecode w')

/-- A step of a RUNNING core: inside an unfinished service it goes on there (R50), else it fetches, decodes and executes. -/
def runningStep (s : State) : Host.Outcome State Fault Refusal :=
  match s.pending with
  | some p => .next (s.resume p)
  | none => decodeAndExecute s.fetch.1 s.fetch.2

/-- The cycle: a core that is not RUNNING has no step (10_state.md R42, R45; assumption log 10). -/
def cycle (s : State) : Host.Outcome State Fault Refusal :=
  if s.run = .running then runningStep s else .fault (.stopped s.run)

end Sys2Proof.Machine
end

