-- ==== Sys2Proof/Machine/Step.lean ====
section
/-! DEFINITION. One step of the core (10_state.md R45), and where the next instruction's word stands. -/

namespace Sys2Proof.Machine

/-- One step of the core (10_state.md R45). -/
def step (s : State) : Host.Outcome State Fault Refusal := cycle s

/-- `s` with an instruction word stored where the next fetch reads it. An instruction is one word (30_encoding.md R100), so
`nbits` adds nothing: every bit of the instruction above it is 0 in `w`. It stands for what the Loader does before the first
step (assumption log 20); at `pc` = 0xFE00 the fetch's poll overwrites the word (20_memory.md R89). -/
def State.withFetchWord (s : State) (_nbits w : Nat) : State := s.busWrite s.pc (BitVec.ofNat 16 w)

end Sys2Proof.Machine
end

