-- ==== Sys2Proof/Machine/HostMoves.lean ====
section
/-! DEFINITION. What the host may do: deliver a byte, terminate the run, load the images before the first step; and a run as
any order of host moves and steps (10_state.md R63 to R65; 60_exceptions.md R263, R270 to R273; 70_reset_and_hazards.md R293). -/

namespace Sys2Proof.Machine

/-- The host appends one byte to `console.in`, at any time while `run` is RUNNING (60_exceptions.md R270). -/
def State.deliver (s : State) (b : Byte) : Option State :=
  if s.run = .running then some { s with consoleIn := s.consoleIn ++ [b] } else none

/-- The core is at an instruction boundary or held in ConsoleRead, not inside a string walk (60_exceptions.md R272). -/
def State.interruptible (s : State) : Bool :=
  match s.pending with
  | none => true
  | some .getc => true
  | some .inEcho => true
  | some .puts => false
  | some .putsp => false

/-- The host ends the run, at an instruction boundary or while the core is held; the effects so far stand and the wait ends
(60_exceptions.md R272, R277; decision D15, assumption log 19). -/
def State.terminate (s : State) : Option State :=
  if s.run = .running ∧ s.interruptible = true then some ((s.setRun .terminated).setPending none) else none

/-! The image load (70_reset_and_hazards.md R293; decision D18, assumption log 20). -/

/-- The big-endian 16-bit words of an image; an odd trailing byte is ignored. -/
def imageWords : List Byte → List Word
  | hi :: lo :: rest => (hi ++ lo) :: imageWords rest
  | _ => []

/-- Words at consecutive addresses; words that would fall past 0xFFFF are not loaded. -/
def placeWords : Nat → List Word → Memory → Memory
  | _, [], m => m
  | a, w :: ws, m => placeWords (a + 1) ws (if a < Config.memWords then Memory.write m a w else m)

/-- One image: the first word is the origin of the rest. An image with no origin word fails to load. -/
def loadImage (m : Memory) (image : List Byte) : Option Memory :=
  match imageWords image with
  | [] => none
  | origin :: ws => some (placeWords origin.toNat ws m)

/-- The images in the order given; a later one wins where they overlap. -/
def loadImages : Memory → List (List Byte) → Option Memory
  | m, [] => some m
  | m, image :: images =>
    match loadImage m image with
    | some m' => loadImages m' images
    | none => none

/-- The state at the first fetch: the reset state over LAUNCH_MEMORY. With no image, or one that fails to load, no run starts
(70_reset_and_hazards.md R290, R294). -/
def State.launch (images : List (List Byte)) : Option State :=
  match images with
  | [] => none
  | image :: rest =>
    match loadImages State.reset.mem (image :: rest) with
    | some m => some { State.reset with mem := m }
    | none => none

/-! Runs with the host's moves at any point: "either may go first" (60_exceptions.md R263; assumption log 19). -/

/-- One event of a run. -/
inductive Event where
  /-- The core takes a step. -/
  | core
  /-- The host delivers a byte. -/
  | deliver (b : Byte)
  /-- The host terminates the run. -/
  | terminate
deriving DecidableEq, Repr

/-- The state after an event; `none` where the event cannot happen. -/
def State.apply (s : State) : Event → Option State
  | .core =>
    match step s with
    | .next t => some t
    | .fault _ => none
    | .refused _ => none
  | .deliver b => s.deliver b
  | .terminate => s.terminate

/-- The state after a schedule of events; `none` where one of them cannot happen. -/
def State.runEvents : State → List Event → Option State
  | s, [] => some s
  | s, e :: es =>
    match s.apply e with
    | some t => t.runEvents es
    | none => none

end Sys2Proof.Machine
end

