-- ==== Sys2Proof/Safety.lean ====
section
/-! DEFINITION. The terms the statements use: what an instruction leaves unchanged, the table of who writes which register,
and the invariant of the machine. -/

namespace Sys2Proof.Machine

/-! Frames: what stays as it was. -/

/-- Every word of memory reads as before. -/
def KeepsMem (s t : State) : Prop := ∀ a : Word, t.rawRead a = s.rawRead a

/-- Every register outside `rs` is unchanged. -/
def KeepsRegs (s t : State) (rs : List Reg) : Prop := ∀ r : Reg, r ∉ rs → t.getReg r = s.getReg r

/-- Nothing was read from the console and nothing written to it. -/
def KeepsConsole (s t : State) : Prop := t.consoleIn = s.consoleIn ∧ t.consoleOut = s.consoleOut

/-- The run state, the fault record, the unfinished service and the parameters are unchanged. -/
def KeepsRun (s t : State) : Prop :=
  t.run = s.run ∧ t.fault = s.fault ∧ t.pending = s.pending ∧ t.params = s.params

/-- Register `dr` holds `v`, `cond` is the flag of `v` by 00_scope.md R14, and every other register is unchanged. -/
def WritesResult (s t : State) (dr : Reg) (v : Word) : Prop :=
  t.getReg dr = v ∧ t.cond = (if v = 0x0000#16 then Cond.z else if v.getLsbD 15 then Cond.n else Cond.p) ∧ KeepsRegs s t [dr]

/-! The table of 10_state.md R31. -/

/-- The register of R31's first row: DR of ADD, AND, NOT, LD, LDI, LDR and LEA. -/
def destReg : Instr → Option Reg
  | .addReg dr _ _ _ => some dr
  | .addImm dr _ _ => some dr
  | .andReg dr _ _ _ => some dr
  | .andImm dr _ _ => some dr
  | .not dr _ _ => some dr
  | .ld dr _ => some dr
  | .ldi dr _ => some dr
  | .ldr dr _ _ => some dr
  | .lea dr _ => some dr
  | .br _ _ => none
  | .st _ _ => none
  | .jsr _ => none
  | .jsrr _ _ _ => none
  | .str _ _ _ => none
  | .rti _ => none
  | .sti _ _ => none
  | .jmp _ _ _ => none
  | .res _ => none
  | .trap _ _ => none
  | .ret => none
  | .nop => none
  | .getc => none
  | .out => none
  | .puts => none
  | .inEcho => none
  | .putsp => none
  | .halt => none

/-- The vector of a TRAP, by its own name or by a service's. -/
def trapVector : Instr → Option (BitVec 8)
  | .trap _ vect8 => some vect8
  | .getc => some 0x20#8
  | .out => some 0x21#8
  | .puts => some 0x22#8
  | .inEcho => some 0x23#8
  | .putsp => some 0x24#8
  | .halt => some 0x25#8
  | .br _ _ => none
  | .addReg _ _ _ _ => none
  | .addImm _ _ _ => none
  | .ld _ _ => none
  | .st _ _ => none
  | .jsr _ => none
  | .jsrr _ _ _ => none
  | .andReg _ _ _ _ => none
  | .andImm _ _ _ => none
  | .ldr _ _ _ => none
  | .str _ _ _ => none
  | .rti _ => none
  | .not _ _ _ => none
  | .ldi _ _ => none
  | .sti _ _ => none
  | .jmp _ _ _ => none
  | .res _ => none
  | .lea _ _ => none
  | .ret => none
  | .nop => none

/-- R31's second and third rows: JSR, JSRR and TRAP (any vector) write R7. -/
def writesLink : Instr → Bool
  | .jsr _ => true
  | .jsrr _ _ _ => true
  | .trap _ _ => true
  | .getc => true
  | .out => true
  | .puts => true
  | .inEcho => true
  | .putsp => true
  | .halt => true
  | .br _ _ => false
  | .addReg _ _ _ _ => false
  | .addImm _ _ _ => false
  | .ld _ _ => false
  | .st _ _ => false
  | .andReg _ _ _ _ => false
  | .andImm _ _ _ => false
  | .ldr _ _ _ => false
  | .str _ _ _ => false
  | .rti _ => false
  | .not _ _ _ => false
  | .ldi _ _ => false
  | .sti _ _ => false
  | .jmp _ _ _ => false
  | .res _ => false
  | .lea _ _ => false
  | .ret => false
  | .nop => false

/-- R31's fourth row: GETC and IN write R0. -/
def readsChar (i : Instr) : Bool := trapVector i == some 0x20#8 || trapVector i == some 0x23#8

/-- The address an instruction stores to, computed as its meaning computes it (42_load_store.md R190 to R192). -/
def storeAddr (i : Instr) (s : State) : Option Word :=
  match i with
  | .st _ off9 => some (s.pcRel9 off9)
  | .sti _ off9 => some (s.busRead (s.pcRel9 off9)).1
  | .str _ baseR off6 => some (s.baseOff6 baseR off6)
  | .br _ _ => none
  | .addReg _ _ _ _ => none
  | .addImm _ _ _ => none
  | .ld _ _ => none
  | .jsr _ => none
  | .jsrr _ _ _ => none
  | .andReg _ _ _ _ => none
  | .andImm _ _ _ => none
  | .ldr _ _ _ => none
  | .rti _ => none
  | .not _ _ _ => none
  | .ldi _ _ => none
  | .jmp _ _ _ => none
  | .res _ => none
  | .lea _ _ => none
  | .trap _ _ => none
  | .ret => none
  | .nop => none
  | .getc => none
  | .out => none
  | .puts => none
  | .inEcho => none
  | .putsp => none
  | .halt => none

/-- The addresses an instruction reads through the bus, in order, after its fetch (20_memory.md R84). -/
def readAddrs (i : Instr) (s : State) : List Word :=
  match i with
  | .ld _ off9 => [s.pcRel9 off9]
  | .ldi _ off9 => [s.pcRel9 off9, (s.busRead (s.pcRel9 off9)).1]
  | .ldr _ baseR off6 => [s.baseOff6 baseR off6]
  | .sti _ off9 => [s.pcRel9 off9]
  | .br _ _ => []
  | .addReg _ _ _ _ => []
  | .addImm _ _ _ => []
  | .st _ _ => []
  | .jsr _ => []
  | .jsrr _ _ _ => []
  | .andReg _ _ _ _ => []
  | .andImm _ _ _ => []
  | .str _ _ _ => []
  | .rti _ => []
  | .not _ _ _ => []
  | .jmp _ _ _ => []
  | .res _ => []
  | .lea _ _ => []
  | .trap _ _ => []
  | .ret => []
  | .nop => []
  | .getc => []
  | .out => []
  | .puts => []
  | .inEcho => []
  | .putsp => []
  | .halt => []

/-- What a poll can have done to the word at `a` between `s` and `t` (20_memory.md R77): KBSR is READY with the key consumed,
or 0x0000 with none waiting; KBDR holds the key consumed. -/
def PolledWord (s t : State) (a : Word) : Prop :=
  (a = 0xFE00#16 ∧ ((t.rawRead a = 0x8000#16 ∧ ∃ k, s.consoleIn = k :: t.consoleIn)
      ∨ (t.rawRead a = 0x0000#16 ∧ s.consoleIn = [] ∧ t.consoleIn = [])))
    ∨ (a = 0xFE02#16 ∧ ∃ k, s.consoleIn = k :: t.consoleIn ∧ t.rawRead a = BitVec.ofNat 16 k.toNat)

/-! The unused bits of a word. -/

/-- `ir[15:12]` (30_encoding.md R101). -/
def opcodeOf (w : Word) : BitVec 4 := w.extractLsb' 12 4

/-- A word with a non-canonical unused bit, row by row of 30_encoding.md R115's table (RTI, fatal in any case, apart). -/
def unusedBitSet (w : Word) : Bool :=
  ((opcodeOf w == 0x1#4 || opcodeOf w == 0x5#4) && !w.getLsbD 5 && w.extractLsb' 3 2 != 0b00#2)
    || (opcodeOf w == 0x9#4 && w.extractLsb' 0 6 != 0b111111#6)
    || (opcodeOf w == 0xC#4 && (w.extractLsb' 9 3 != 0b000#3 || w.extractLsb' 0 6 != 0b000000#6))
    || (opcodeOf w == 0x4#4 && !w.getLsbD 11 && (w.extractLsb' 9 2 != 0b00#2 || w.extractLsb' 0 6 != 0b000000#6))
    || (opcodeOf w == 0xF#4 && w.extractLsb' 8 4 != 0x0#4)

/-- A word FatalDecodeError is raised for (60_exceptions.md R250): RTI, RES, or a non-canonical unused bit under `fatal`. -/
def fatalWord (policy : UnusedBitsPolicy) (w : Word) : Bool :=
  opcodeOf w == 0x8#4 || opcodeOf w == 0xD#4 || (policy == .fatal && unusedBitSet w)

/-! The invariant. -/

/-- What the fault record says of the run (10_state.md R41; 60_exceptions.md R250 to R253): it is there exactly in the two fault
states, it names a word that raises that error, and `pc` is one past its address; a FatalTrapError leaves `pc+` in R7. -/
def State.FaultOk (s : State) : Prop :=
  match s.run with
  | .faultDecode => ∃ w : Word, s.fault = some ⟨.decode, w, s.pc - 1#16, 0x00#8⟩ ∧ fatalWord s.params.unusedBits w = true
  | .faultTrap =>
    ∃ w : Word, s.fault = some ⟨.trap, w, s.pc - 1#16, w.extractLsb' 0 8⟩ ∧ opcodeOf w = 0xF#4
      ∧ ((w.extractLsb' 0 8).toNat < 0x20 ∨ 0x25 < (w.extractLsb' 0 8).toNat) ∧ s.getReg 7 = s.pc
  | .running => s.fault = none
  | .halted => s.fault = none ∧ s.getReg 7 = s.pc
  | .terminated => s.fault = none

/-- What an unfinished service says of the state: the core is RUNNING and R7 holds the return address TRAP wrote
(10_state.md R50; 60_exceptions.md R277). -/
def State.PendingOk (s : State) : Prop := s.pending ≠ none → s.run = .running ∧ s.getReg 7 = s.pc

/-- The invariant of the machine: memory in its canonical form, the fault record and the unfinished service telling the
truth. -/
def State.Inv (s : State) : Prop := Memory.wf s.mem ∧ s.FaultOk ∧ s.PendingOk

end Sys2Proof.Machine
end

