-- ==== Sys2Proof/Certificates/Slice0/Obligations.lean ====
section
/-! DEFINITION. The statements about the model, for the provers. `exec` runs with `pc` holding `pc+`, the address of the
instruction plus 1 (10_state.md R35). Each docstring names the rule it formalises, or what it is derived from; "log <n>" is
notes/assumptions/<n>.md. -/

open Sys2Proof Sys2Proof.Machine

/-! Encoding. The opcode numbers and most field positions are marked general knowledge by the spec (decision D2, log 12). -/

/-- Decoding the word of a well-formed instruction gives the instruction back, for every constructor and every value of every
field. Derived from 30_encoding.md R102 and R113; positions: decision D2, log 12; names of alias words: log 11. -/
def Obligations.DecodeOfEncodeIsIdentity : Prop :=
  ∀ i : Instr, i.wellFormed = true → decode (encode i) = i

/-- Every word decodes to a well-formed instruction whose word it is, so no bit is dropped and no two words share an
instruction. Derived from 30_encoding.md R113; positions: decision D2, log 12; unused bits kept as fields: log 11. -/
def Obligations.EncodeOfDecodeIsIdentity : Prop :=
  ∀ w : Word, (decode w).wellFormed = true ∧ encode (decode w) = w

/-- Words written out in spec/95_test_vectors.md, one or more of each family, decode to the instruction listed there; 0x3005 is
`ST R0, #5`, as in 42_load_store.md R190's example (the table of stores there gives it beside `ST R1, #5`: log 23). Derived
from them and 30_encoding.md R101 to R112 (decision D2, log 12; alias words: log 11). -/
def Obligations.SpecWordsDecodeAsWritten : Prop :=
  decode 0x1401#16 = .addReg 2 0 0#2 1 ∧ decode 0x1070#16 = .addImm 0 1 0b10000#5 ∧ decode 0x5642#16 = .andReg 3 1 0#2 2
    ∧ decode 0x507F#16 = .andImm 0 1 0b11111#5 ∧ decode 0x923F#16 = .not 1 0 0b111111#6
    ∧ decode 0x0402#16 = .br 0b010#3 2#9 ∧ decode 0xC080#16 = .jmp 0#3 2 0#6 ∧ decode 0xC1C0#16 = .ret
    ∧ decode 0x4C00#16 = .jsr 0x400#11 ∧ decode 0x4080#16 = .jsrr 0#2 2 0#6
    ∧ decode 0x2202#16 = .ld 1 2#9 ∧ decode 0xA401#16 = .ldi 2 1#9 ∧ decode 0x673F#16 = .ldr 3 4 0b111111#6
    ∧ decode 0xE1FF#16 = .lea 0 0x1FF#9 ∧ decode 0x3005#16 = .st 0 5#9 ∧ decode 0xB201#16 = .sti 1 1#9
    ∧ decode 0x7543#16 = .str 2 5 3#6 ∧ decode 0xF025#16 = .halt ∧ decode 0xF026#16 = .trap 0#4 0x26#8
    ∧ decode 0x8000#16 = .rti 0#12 ∧ decode 0xD123#16 = .res 0x123#12

/-- UNUSED_BITS_POLICY at decode: under `ignore` every word goes on to execute; under `fatal` exactly the words with a
non-canonical bit by R115's table are rejected (RTI and RES go on to their own rules, which raise). Derived from 30_encoding.md R115 and
10_state.md R47, a parameter by decision D4 (log 4); canonical values are general knowledge there (log 12). -/
def Obligations.UnusedBitsAreCheckedOnlyWhenFatal : Prop :=
  ∀ w : Word, decodeUnder .ignore w = .ok (decode w)
    ∧ decodeUnder .fatal w = if unusedBitSet w then .error (.unusedBits w) else .ok (decode w)

/-- ADD and AND register mode, NOT, JMP and JSRR execute with any unused bits as with the canonical ones; JMP R7, BR with an
empty mask and TRAP with a service vector 0x20 to 0x25, with any unused bits, execute as RET, NOP and the six services. Not
covered, because there the unused bits change the recorded word: TRAP with an unrecognized vector and RTI
(`UnknownVectorIsFatalAfterTheLink`, `RtiAndResAreFatalAtDecode`). Derived from 30_encoding.md R115 (`ignore`) and R122
(decision D4: log 4; the alias constructors: log 11). -/
def Obligations.UnusedBitsAndAliasesDoNotChangeExecution : Prop :=
  ∀ (s : State) (dr sr1 sr2 : Reg) (u2 : BitVec 2) (u3 : BitVec 3) (u4 : BitVec 4) (u6 : BitVec 6) (off9 : BitVec 9),
    exec (.addReg dr sr1 u2 sr2) s = exec (.addReg dr sr1 0#2 sr2) s
    ∧ exec (.andReg dr sr1 u2 sr2) s = exec (.andReg dr sr1 0#2 sr2) s
    ∧ exec (.not dr sr1 u6) s = exec (.not dr sr1 0b111111#6) s
    ∧ exec (.jmp u3 sr1 u6) s = exec (.jmp 0#3 sr1 0#6) s
    ∧ exec (.jsrr u2 sr1 u6) s = exec (.jsrr 0#2 sr1 0#6) s
    ∧ exec (.jmp u3 7 u6) s = exec .ret s
    ∧ exec (.br 0b000#3 off9) s = exec .nop s
    ∧ exec (.trap u4 0x20#8) s = exec .getc s ∧ exec (.trap u4 0x21#8) s = exec .out s
    ∧ exec (.trap u4 0x22#8) s = exec .puts s ∧ exec (.trap u4 0x23#8) s = exec .inEcho s
    ∧ exec (.trap u4 0x24#8) s = exec .putsp s ∧ exec (.trap u4 0x25#8) s = exec .halt s

/-! The instruction cycle. -/

/-- A RUNNING core at an instruction boundary executes the instruction the fetched word decodes to, in the state the fetch
leaves. Derived from 10_state.md R45 to R48 (decisions D1, D6, D4: log 14, log 4). -/
def Obligations.StepRunsTheDecodedInstruction : Prop :=
  ∀ (s : State) (i : Instr), s.run = .running → s.pending = none →
    decodeUnder s.params.unusedBits s.fetch.1 = .ok i → step s = exec i s.fetch.2

/-- A word the decode phase rejects raises FatalDecodeError with nothing executed: only the fetch's effects stand. Derived
from 10_state.md R47 and 60_exceptions.md R252, R253 (decisions D4, D16: log 4, log 18). -/
def Obligations.StepRejectsNonCanonicalWord : Prop :=
  ∀ s : State, s.run = .running → s.pending = none → s.params.unusedBits = .fatal → unusedBitSet s.fetch.1 = true →
    ∃ t, step s = .next t ∧ t.run = .faultDecode ∧ t.fault = some ⟨.decode, s.fetch.1, s.pc, 0x00#8⟩ ∧ t.pc = s.pc + 1#16
      ∧ t.cond = s.cond ∧ KeepsRegs s t [] ∧ KeepsMem s.fetch.2 t ∧ t.consoleIn = s.fetch.2.consoleIn
      ∧ t.consoleOut = s.consoleOut

/-- Fetch away from KBSR reads the word at `pc`, advances `pc` modulo 2^16 and changes nothing else; at KBSR it reads what the
poll leaves. Derived from 10_state.md R46 and 20_memory.md R89 (decision D6, log 14). -/
def Obligations.FetchReadsAndAdvances : Prop :=
  ∀ s : State, s.fetch.2.pc = s.pc + 1#16 ∧ s.fetch.2.cond = s.cond ∧ KeepsRegs s s.fetch.2 []
    ∧ KeepsRun s s.fetch.2 ∧ s.fetch.2.consoleOut = s.consoleOut
    ∧ (s.pc ≠ 0xFE00#16 → s.fetch.1 = s.rawRead s.pc ∧ KeepsMem s s.fetch.2 ∧ s.fetch.2.consoleIn = s.consoleIn)
    ∧ (s.pc = 0xFE00#16 → s.fetch.1 = (if s.consoleIn.isEmpty then 0x0000#16 else 0x8000#16))

/-- A step at KBSR with a key pending consumes the key and is fatal as RTI; with none it is a NOP. Derived from 20_memory.md
R89 (decisions D6, D7, D16: log 14, log 15, log 18). -/
def Obligations.StepAtKbsrPollsThenExecutes : Prop :=
  ∀ s : State, s.run = .running → s.pending = none → s.pc = 0xFE00#16 →
    ∃ t, step s = .next t ∧ t.pc = 0xFE01#16 ∧ t.cond = s.cond ∧ KeepsRegs s t [] ∧ t.consoleOut = s.consoleOut
      ∧ match s.consoleIn with
        | [] => t.run = .running ∧ t.consoleIn = []
            ∧ ∀ a : Word, t.rawRead a = if a = 0xFE00#16 then 0x0000#16 else s.rawRead a
        | k :: rest => t.run = .faultDecode ∧ t.fault = some ⟨.decode, 0x8000#16, 0xFE00#16, 0x00#8⟩ ∧ t.consoleIn = rest
            ∧ ∀ a : Word, t.rawRead a
                = if a = 0xFE00#16 then 0x8000#16 else if a = 0xFE02#16 then BitVec.ofNat 16 k.toNat else s.rawRead a

/-- A run state other than RUNNING is final: the core has no step, and the host no move that changes anything. Derived from
10_state.md R42, R45 (decision D17) and 60_exceptions.md R270, R272; the fault named `stopped` is log 10. -/
def Obligations.FinalStatesTakeNoStep : Prop :=
  ∀ s : State, s.run ≠ .running → step s = .fault (.stopped s.run) ∧ ∀ e : Event, s.apply e = none

/-! Memory and the keyboard. -/

/-- The bus write stores the word at its address, whatever the address, and changes nothing else. Formalises 20_memory.md
R75. -/
def Obligations.MemWriteStoresOneWord : Prop :=
  ∀ (s : State) (a v : Word),
    (∀ b : Word, (s.busWrite a v).rawRead b = if b = a then v else s.rawRead b)
    ∧ (s.busWrite a v).pc = s.pc ∧ (s.busWrite a v).cond = s.cond ∧ KeepsRegs s (s.busWrite a v) []
    ∧ KeepsConsole s (s.busWrite a v) ∧ KeepsRun s (s.busWrite a v)

/-- The bus read: at every address but KBSR the word there, with no side effect; at KBSR it polls first, which consumes a
waiting byte into KBDR and makes KBSR 0x8000, or makes KBSR 0x0000 and leaves KBDR. Nothing but memory and `console.in` ever
changes. Derived from 20_memory.md R74, R77, R83 (decisions D7, D8: log 15). -/
def Obligations.BusReadPollsOnlyAtKbsr : Prop :=
  ∀ (s : State) (a : Word),
    (s.busRead a).2.pc = s.pc ∧ (s.busRead a).2.cond = s.cond ∧ KeepsRegs s (s.busRead a).2 []
    ∧ (s.busRead a).2.consoleOut = s.consoleOut ∧ KeepsRun s (s.busRead a).2
    ∧ (a ≠ 0xFE00#16 → (s.busRead a).1 = s.rawRead a ∧ KeepsMem s (s.busRead a).2
        ∧ (s.busRead a).2.consoleIn = s.consoleIn)
    ∧ (a = 0xFE00#16 →
        match s.consoleIn with
        | [] => (s.busRead a).1 = 0x0000#16 ∧ (s.busRead a).2.consoleIn = []
            ∧ ∀ b : Word, (s.busRead a).2.rawRead b = if b = 0xFE00#16 then 0x0000#16 else s.rawRead b
        | k :: rest => (s.busRead a).1 = 0x8000#16 ∧ (s.busRead a).2.consoleIn = rest
            ∧ ∀ b : Word, (s.busRead a).2.rawRead b
                = if b = 0xFE00#16 then 0x8000#16 else if b = 0xFE02#16 then BitVec.ofNat 16 k.toNat else s.rawRead b)

/-- A value stored to KBSR is never read back by the bus, and one stored to KBDR is, until a key is consumed. Derived from
20_memory.md R78, R79 (decision D8, log 15; 90_conflicts.md C9). -/
def Obligations.StoredKbsrIsOverwrittenByThePoll : Prop :=
  ∀ (s : State) (v : Word),
    ((s.busWrite 0xFE00#16 v).busRead 0xFE00#16).1 = (if s.consoleIn = [] then 0x0000#16 else 0x8000#16)
    ∧ ((s.busWrite 0xFE02#16 v).busRead 0xFE02#16).1 = v
    ∧ (((s.busWrite 0xFE02#16 v).busRead 0xFE00#16).2.busRead 0xFE02#16).1
        = match s.consoleIn with
          | [] => v
          | k :: _ => BitVec.ofNat 16 k.toNat

/-- A store to the next instruction's address, by ST, STI or STR (the instructions `storeAddr` gives an address for), is what
the very next fetch reads. Derived from 20_memory.md R88; away from KBSR, whose word the fetch's poll replaces (R89; decision
D6, log 14; STI's pointer read may poll: log 15). -/
def Obligations.StoreIsSeenByTheNextFetch : Prop :=
  ∀ (s : State) (sr baseR : Reg) (off9 : BitVec 9) (off6 : BitVec 6), s.pc ≠ 0xFE00#16 →
    (storeAddr (.st sr off9) s = some s.pc → ∃ t, exec (.st sr off9) s = .next t ∧ t.fetch.1 = s.getReg sr)
    ∧ (storeAddr (.sti sr off9) s = some s.pc → ∃ t, exec (.sti sr off9) s = .next t ∧ t.fetch.1 = s.getReg sr)
    ∧ (storeAddr (.str sr baseR off6) s = some s.pc →
        ∃ t, exec (.str sr baseR off6) s = .next t ∧ t.fetch.1 = s.getReg sr)
    ∧ ∀ i : Instr, storeAddr i s ≠ none →
        ∃ (r b : Reg) (o9 : BitVec 9) (o6 : BitVec 6), i = .st r o9 ∨ i = .sti r o9 ∨ i = .str r b o6

/-! Flags and operands. -/

/-- `setcc`: the zero test first, then bit 15, from the register after the write; nothing else changes.
Formalises 00_scope.md R14. -/
def Obligations.SetccTestsZeroThenSign : Prop :=
  ∀ (s : State) (r : Reg),
    (s.setcc r).cond = (if s.getReg r = 0x0000#16 then .z else if (s.getReg r).getLsbD 15 then .n else .p)
    ∧ (s.setcc r).pc = s.pc ∧ KeepsRegs s (s.setcc r) [] ∧ KeepsMem s (s.setcc r) ∧ KeepsConsole s (s.setcc r)
    ∧ KeepsRun s (s.setcc r)

/-- `sext_N`: the low N bits are the field's, every bit from N up is the field's sign bit, and as numbers
`f` or `f + (2^16 - 2^N)`. Formalises 00_scope.md R10. -/
def Obligations.SignExtensionCopiesTheSignBit : Prop :=
  ∀ (n : Nat) (f : BitVec n), 1 ≤ n → n ≤ 16 →
    (∀ k, k < n → (sext f).getLsbD k = f.getLsbD k)
    ∧ (∀ k, n ≤ k → k < 16 → (sext f).getLsbD k = f.getLsbD (n - 1))
    ∧ (sext f).toNat = if f.getLsbD (n - 1) then f.toNat + (2 ^ 16 - 2 ^ n) else f.toNat

/-! Operate instructions: the result, the flags from it, and nothing else. -/

/-- ADD, register mode: both sources are read before the write; the sum wraps. Derived from 40_operate.md R140 (its encoding
line is in the encoding statements: decision D2, log 12). -/
def Obligations.AddRegisterWritesTheSum : Prop :=
  ∀ (dr sr1 sr2 : Reg) (u : BitVec 2) (s : State), ∃ t, exec (.addReg dr sr1 u sr2) s = .next t
    ∧ WritesResult s t dr (BitVec.ofNat 16 ((s.getReg sr1).toNat + (s.getReg sr2).toNat))
    ∧ t.pc = s.pc ∧ KeepsMem s t ∧ KeepsConsole s t ∧ KeepsRun s t

/-- ADD, immediate mode: its words `0001 ddd sss 1 iiiii` decode to it under either policy, and it writes the wrapped sum with
the sign-extended immediate and the flags, and nothing else. Formalises 40_operate.md R141, whose layout is the source's own
example. -/
def Obligations.AddImmediateWritesTheSum : Prop :=
  ∀ (dr sr1 : Reg) (imm5 : BitVec 5) (s : State),
    (∀ policy, decodeUnder policy (0b0001#4 ++ regBits dr ++ regBits sr1 ++ 0b1#1 ++ imm5) = .ok (.addImm dr sr1 imm5))
    ∧ ∃ t, exec (.addImm dr sr1 imm5) s = .next t
      ∧ WritesResult s t dr (BitVec.ofNat 16 ((s.getReg sr1).toNat + (sext imm5).toNat))
      ∧ t.pc = s.pc ∧ KeepsMem s t ∧ KeepsConsole s t ∧ KeepsRun s t

/-- AND, register mode. Derived from 40_operate.md R143 (encoding: decision D2, log 12). -/
def Obligations.AndRegisterWritesTheConjunction : Prop :=
  ∀ (dr sr1 sr2 : Reg) (u : BitVec 2) (s : State), ∃ t v, exec (.andReg dr sr1 u sr2) s = .next t
    ∧ (∀ k, k < 16 → v.getLsbD k = ((s.getReg sr1).getLsbD k && (s.getReg sr2).getLsbD k))
    ∧ WritesResult s t dr v ∧ t.pc = s.pc ∧ KeepsMem s t ∧ KeepsConsole s t ∧ KeepsRun s t

/-- AND, immediate mode: the immediate is sign-extended before the AND. Derived from 40_operate.md R144 (encoding: decision
D2, log 12). -/
def Obligations.AndImmediateWritesTheConjunction : Prop :=
  ∀ (dr sr1 : Reg) (imm5 : BitVec 5) (s : State), ∃ t v, exec (.andImm dr sr1 imm5) s = .next t
    ∧ (∀ k, k < 16 → v.getLsbD k = ((s.getReg sr1).getLsbD k && (if k < 5 then imm5.getLsbD k else imm5.getLsbD 4)))
    ∧ WritesResult s t dr v ∧ t.pc = s.pc ∧ KeepsMem s t ∧ KeepsConsole s t ∧ KeepsRun s t

/-- NOT: the complement is 0xFFFF minus the source. Derived from 40_operate.md R145 (encoding: decision D2, log 12). -/
def Obligations.NotWritesTheComplement : Prop :=
  ∀ (dr sr : Reg) (u : BitVec 6) (s : State), ∃ t, exec (.not dr sr u) s = .next t
    ∧ WritesResult s t dr (BitVec.ofNat 16 (0xFFFF - (s.getReg sr).toNat))
    ∧ t.pc = s.pc ∧ KeepsMem s t ∧ KeepsConsole s t ∧ KeepsRun s t

/-! Control transfer: `pc`, R7 for the calls, and nothing else. -/

/-- BR is taken exactly where the mask bit of the flag that is set is 1, and then `pc` is `pc+ + sext_9`, else `pc+`; NOP
never branches. Derived from 41_control.md R160, R161 and 30_encoding.md R117 (bit pairing: decision D3, log 13). -/
def Obligations.BranchFollowsTheMaskBitOfCond : Prop :=
  ∀ (nzp : BitVec 3) (off9 : BitVec 9) (s : State),
    (∃ t, exec (.br nzp off9) s = .next t
      ∧ t.pc = (if (match s.cond with | .n => nzp.getLsbD 2 | .z => nzp.getLsbD 1 | .p => nzp.getLsbD 0)
          then s.pc + sext off9 else s.pc)
      ∧ t.cond = s.cond ∧ KeepsRegs s t [] ∧ KeepsMem s t ∧ KeepsConsole s t ∧ KeepsRun s t)
    ∧ ∃ t, exec .nop s = .next t ∧ t.pc = s.pc ∧ t.cond = s.cond ∧ KeepsRegs s t [] ∧ KeepsMem s t ∧ KeepsConsole s t
      ∧ KeepsRun s t

/-- JMP goes to the value of BaseR, RET to the value of R7. Derived from 41_control.md R162 (encoding: decision D2, log 12). -/
def Obligations.JumpGoesToTheBaseRegister : Prop :=
  ∀ (uHi : BitVec 3) (baseR : Reg) (uLo : BitVec 6) (s : State),
    (∃ t, exec (.jmp uHi baseR uLo) s = .next t ∧ t.pc = s.getReg baseR
      ∧ t.cond = s.cond ∧ KeepsRegs s t [] ∧ KeepsMem s t ∧ KeepsConsole s t ∧ KeepsRun s t)
    ∧ ∃ t, exec .ret s = .next t ∧ t.pc = s.getReg 7
      ∧ t.cond = s.cond ∧ KeepsRegs s t [] ∧ KeepsMem s t ∧ KeepsConsole s t ∧ KeepsRun s t

/-- JSR saves `pc+` in R7, goes to `pc+ + sext_11` and sets no flag. Derived from 41_control.md R163 (encoding: decision D2,
log 12). -/
def Obligations.JsrLinksAndGoesToTheOffset : Prop :=
  ∀ (off11 : BitVec 11) (s : State), ∃ t, exec (.jsr off11) s = .next t ∧ t.getReg 7 = s.pc ∧ t.pc = s.pc + sext off11
    ∧ t.cond = s.cond ∧ KeepsRegs s t [7] ∧ KeepsMem s t ∧ KeepsConsole s t ∧ KeepsRun s t

/-- JSRR saves `pc+` in R7 and then reads BaseR, so `JSRR R7` lands at `pc+`, not at R7's old value. Derived from
41_control.md R164 (encoding: decision D2, log 12). -/
def Obligations.JsrrLinksBeforeReadingTheBase : Prop :=
  ∀ (uHi : BitVec 2) (baseR : Reg) (uLo : BitVec 6) (s : State), ∃ t, exec (.jsrr uHi baseR uLo) s = .next t
    ∧ t.getReg 7 = s.pc ∧ t.pc = (if baseR = 7 then s.pc else s.getReg baseR)
    ∧ t.cond = s.cond ∧ KeepsRegs s t [7] ∧ KeepsMem s t ∧ KeepsConsole s t ∧ KeepsRun s t

/-! Loads, LEA and stores. What a bus read gives and leaves is `BusReadPollsOnlyAtKbsr`. -/

/-- LD makes one bus read, at `pc+ + sext_9`; memory and `console.in` are what that read leaves. Derived from 42_load_store.md
R180 (encoding: decision D2, log 12; the poll: log 15). -/
def Obligations.LdLoadsFromThePcOffset : Prop :=
  ∀ (dr : Reg) (off9 : BitVec 9) (s : State), ∃ t, exec (.ld dr off9) s = .next t
    ∧ WritesResult s t dr (s.busRead (s.pc + sext off9)).1
    ∧ KeepsMem (s.busRead (s.pc + sext off9)).2 t ∧ t.consoleIn = (s.busRead (s.pc + sext off9)).2.consoleIn
    ∧ t.pc = s.pc ∧ t.consoleOut = s.consoleOut ∧ KeepsRun s t

/-- LDI makes two bus reads, the pointer at `pc+ + sext_9` and then the data at the pointer, and consumes at most one byte of
console input. Derived from 42_load_store.md R181 and 20_memory.md R84 (encoding: decision D2, log 12; the poll: log 15). -/
def Obligations.LdiLoadsThroughThePointer : Prop :=
  ∀ (dr : Reg) (off9 : BitVec 9) (s : State), ∃ t p u, exec (.ldi dr off9) s = .next t
    ∧ s.busRead (s.pc + sext off9) = (p, u) ∧ WritesResult s t dr (u.busRead p).1
    ∧ KeepsMem (u.busRead p).2 t ∧ t.consoleIn = (u.busRead p).2.consoleIn
    ∧ (t.consoleIn = s.consoleIn ∨ ∃ k, s.consoleIn = k :: t.consoleIn)
    ∧ t.pc = s.pc ∧ t.consoleOut = s.consoleOut ∧ KeepsRun s t

/-- LDR makes one bus read, at BaseR plus the unscaled offset, the base read before DR is written. Derived from
42_load_store.md R182 (encoding: decision D2, log 12; the poll: log 15). -/
def Obligations.LdrLoadsFromTheBaseOffset : Prop :=
  ∀ (dr baseR : Reg) (off6 : BitVec 6) (s : State), ∃ t, exec (.ldr dr baseR off6) s = .next t
    ∧ WritesResult s t dr (s.busRead (s.getReg baseR + sext off6)).1
    ∧ KeepsMem (s.busRead (s.getReg baseR + sext off6)).2 t
    ∧ t.consoleIn = (s.busRead (s.getReg baseR + sext off6)).2.consoleIn
    ∧ t.pc = s.pc ∧ t.consoleOut = s.consoleOut ∧ KeepsRun s t

/-- LEA writes the address `pc+ + sext_9` and the flags, and never touches memory or the keyboard. Derived from
42_load_store.md R183 (encoding: decision D2, log 12). -/
def Obligations.LeaWritesTheAddress : Prop :=
  ∀ (dr : Reg) (off9 : BitVec 9) (s : State), ∃ t, exec (.lea dr off9) s = .next t
    ∧ WritesResult s t dr (s.pc + sext off9) ∧ t.pc = s.pc ∧ KeepsMem s t ∧ KeepsConsole s t ∧ KeepsRun s t

/-- ST stores SR at `pc+ + sext_9` and changes no other word, no register and no flag. Derived from 42_load_store.md R190
(encoding: decision D2, log 12). -/
def Obligations.StStoresAtThePcOffset : Prop :=
  ∀ (sr : Reg) (off9 : BitVec 9) (s : State), ∃ t, exec (.st sr off9) s = .next t
    ∧ (∀ a : Word, t.rawRead a = if a = s.pc + sext off9 then s.getReg sr else s.rawRead a)
    ∧ t.pc = s.pc ∧ t.cond = s.cond ∧ KeepsRegs s t [] ∧ KeepsConsole s t ∧ KeepsRun s t

/-- STI reads the pointer through the bus at `pc+ + sext_9` and stores SR there; every other word is as that read left it.
Derived from 42_load_store.md R191 (encoding: decision D2, log 12; the poll: log 15). -/
def Obligations.StiStoresThroughThePointer : Prop :=
  ∀ (sr : Reg) (off9 : BitVec 9) (s : State), ∃ t p u, exec (.sti sr off9) s = .next t
    ∧ s.busRead (s.pc + sext off9) = (p, u)
    ∧ (∀ a : Word, t.rawRead a = if a = p then s.getReg sr else u.rawRead a) ∧ t.consoleIn = u.consoleIn
    ∧ t.pc = s.pc ∧ t.cond = s.cond ∧ KeepsRegs s t [] ∧ t.consoleOut = s.consoleOut ∧ KeepsRun s t

/-- STR stores SR at BaseR plus the unscaled offset and changes no other word, no register and no flag. Derived from
42_load_store.md R192 (encoding: decision D2, log 12). -/
def Obligations.StrStoresAtTheBaseOffset : Prop :=
  ∀ (sr baseR : Reg) (off6 : BitVec 6) (s : State), ∃ t, exec (.str sr baseR off6) s = .next t
    ∧ (∀ a : Word, t.rawRead a = if a = s.getReg baseR + sext off6 then s.getReg sr else s.rawRead a)
    ∧ t.pc = s.pc ∧ t.cond = s.cond ∧ KeepsRegs s t [] ∧ KeepsConsole s t ∧ KeepsRun s t

/-! TRAP and its services. -/

/-- Apart from TRAP's write of R7, a service changes only what its rule names: no service writes memory or `pc`; OUT, PUTS,
PUTSP and HALT write no register and no flag, GETC and IN only R0 and `cond`; only HALT changes `run`. PUTS and PUTSP read
raw: whatever waits on the keyboard, they neither poll nor consume it, which is the spec's decision D9 (log 16). Derived from
43_trap.md R212 and R216 (a read that is held writes no R0: log 8; an endless walk: log 9). -/
def Obligations.ServicesChangeOnlyWhatTheyName : Prop :=
  ∀ (i : Instr) (s t : State) (v : BitVec 8), trapVector i = some v → 0x20 ≤ v.toNat → v.toNat ≤ 0x25 →
    exec i s = .next t →
    KeepsMem s t ∧ t.pc = s.pc ∧ t.getReg 7 = s.pc ∧ KeepsRegs s t [0, 7]
    ∧ (v ≠ 0x20#8 → v ≠ 0x23#8 → t.getReg 0 = s.getReg 0 ∧ t.cond = s.cond ∧ t.consoleIn = s.consoleIn)
    ∧ t.fault = s.fault ∧ t.params = s.params ∧ (v ≠ 0x25#8 → t.run = s.run) ∧ (v = 0x20#8 → t.consoleOut = s.consoleOut)

/-- TRAP, every vector: R7 holds `pc+` before the dispatch and keeps it, `pc` and memory stay. A service vector runs its
service. Derived from 43_trap.md R210, R222 (opcode number: decision D2, log 12). -/
def Obligations.TrapLinksAndDispatches : Prop :=
  ∀ (u : BitVec 4) (v : BitVec 8) (s : State), ∃ t, exec (.trap u v) s = .next t
    ∧ t.getReg 7 = s.pc ∧ t.pc = s.pc ∧ KeepsMem s t ∧ KeepsRegs s t [0, 7]
    ∧ (v = 0x20#8 → exec .getc s = .next t) ∧ (v = 0x21#8 → exec .out s = .next t) ∧ (v = 0x22#8 → exec .puts s = .next t)
    ∧ (v = 0x23#8 → exec .inEcho s = .next t) ∧ (v = 0x24#8 → exec .putsp s = .next t)
    ∧ (v = 0x25#8 → exec .halt s = .next t)

/-- GETC with a byte waiting takes it into R0 zero-extended, sets Z or P from it and echoes nothing; with none it is held:
only R7 is written, and the core is inside the read. Derived from 43_trap.md R213 and 10_state.md R50 (decision D11: log 17;
the held state: log 8). -/
def Obligations.GetcReadsOneByteOrIsHeld : Prop :=
  ∀ s : State, ∃ t, exec .getc s = .next t ∧ t.getReg 7 = s.pc ∧ t.pc = s.pc ∧ KeepsMem s t ∧ t.consoleOut = s.consoleOut
    ∧ t.run = s.run ∧ t.fault = s.fault ∧ t.params = s.params
    ∧ match s.consoleIn with
      | [] => t.consoleIn = [] ∧ KeepsRegs s t [7] ∧ t.cond = s.cond ∧ t.pending = some .getc
      | b :: rest => t.consoleIn = rest ∧ KeepsRegs s t [0, 7] ∧ (t.getReg 0).toNat = b.toNat
          ∧ t.cond = (if b = 0x00#8 then .z else .p) ∧ t.pending = s.pending

/-- OUT appends the low byte of R0 to `console.out` and changes nothing but R7. Derived from 43_trap.md R214 (opcode number:
decision D2, log 12; output untranslated: log 22). -/
def Obligations.OutWritesTheLowByte : Prop :=
  ∀ s : State, ∃ t, exec .out s = .next t ∧ t.consoleOut = s.consoleOut ++ [(s.getReg 0).extractLsb' 0 8]
    ∧ t.consoleIn = s.consoleIn ∧ t.getReg 7 = s.pc ∧ KeepsRegs s t [7] ∧ t.pc = s.pc ∧ t.cond = s.cond ∧ KeepsMem s t
    ∧ KeepsRun s t

/-- PUTS over a string of non-zero words at R0 ended by a zero word writes the low byte of each, wherever the string lies
(across 0xFFFF or 0xFE00 too), and finishes in the step. Derived from 43_trap.md R215, R216 (decisions D9, D10: log 16). -/
def Obligations.PutsWritesUpToTheZeroWord : Prop :=
  ∀ (s : State) (ws : List Word), (∀ w ∈ ws, w ≠ 0x0000#16) → ws.length < 65536 →
    (∀ k (h : k < ws.length), s.rawRead (s.getReg 0 + BitVec.ofNat 16 k) = ws[k]) →
    s.rawRead (s.getReg 0 + BitVec.ofNat 16 ws.length) = 0x0000#16 →
    ∃ t, exec .puts s = .next t ∧ t.consoleOut = s.consoleOut ++ ws.map (fun w => w.extractLsb' 0 8)
      ∧ t.consoleIn = s.consoleIn ∧ t.getReg 7 = s.pc ∧ KeepsRegs s t [7] ∧ t.pc = s.pc ∧ t.cond = s.cond ∧ KeepsMem s t
      ∧ KeepsRun s t

/-- PUTSP over a string of non-zero words at R0 ended by a zero word writes the low byte of each and then its high byte if
that is not zero. Derived from 43_trap.md R218, R216 (decisions D9, D10: log 16; 90_conflicts.md C8). -/
def Obligations.PutspWritesPackedUpToTheZeroWord : Prop :=
  ∀ (s : State) (ws : List Word), (∀ w ∈ ws, w ≠ 0x0000#16) → ws.length < 65536 →
    (∀ k (h : k < ws.length), s.rawRead (s.getReg 0 + BitVec.ofNat 16 k) = ws[k]) →
    s.rawRead (s.getReg 0 + BitVec.ofNat 16 ws.length) = 0x0000#16 →
    ∃ t, exec .putsp s = .next t
      ∧ t.consoleOut = s.consoleOut ++ ws.flatMap (fun w =>
          w.extractLsb' 0 8 :: (if w.extractLsb' 8 8 = 0x00#8 then [] else [w.extractLsb' 8 8]))
      ∧ t.consoleIn = s.consoleIn ∧ t.getReg 7 = s.pc ∧ KeepsRegs s t [7] ∧ t.pc = s.pc ∧ t.cond = s.cond ∧ KeepsMem s t
      ∧ KeepsRun s t

/-- A PUTS or PUTSP over a memory with no zero word never finishes: the core stays RUNNING inside the service, at every later
step too, never fetches again, and each step writes at least 65536 more bytes. Derived from 43_trap.md R216 (decision D9;
one round of memory a step is the model's: log 9). -/
def Obligations.WalkWithNoZeroWordNeverEnds : Prop :=
  ∀ (s : State), (∀ a : Word, s.rawRead a ≠ 0x0000#16) → s.run = .running →
    (∃ t, exec .puts s = .next t ∧ t.pending = some .puts) ∧ (∃ t, exec .putsp s = .next t ∧ t.pending = some .putsp)
    ∧ (s.pending = some .puts ∨ s.pending = some .putsp →
        ∃ t, step s = .next t ∧ t.pending = s.pending ∧ t.run = .running ∧ t.pc = s.pc ∧ KeepsRegs s t [] ∧ KeepsMem s t
          ∧ ∃ bs : List Byte, t.consoleOut = s.consoleOut ++ bs ∧ 65536 ≤ bs.length)

/-- IN writes the prompt, then reads one byte, echoes it, puts it in R0 zero-extended and sets Z or P; with no byte waiting it
is held with the prompt written and R7 written. For every PROMPT_TEXT. Derived from 43_trap.md R217 and 10_state.md R50
(decisions D11, D12: log 17, log 5; the held state: log 8). -/
def Obligations.InPromptsReadsAndEchoes : Prop :=
  ∀ s : State, ∃ t, exec .inEcho s = .next t ∧ t.getReg 7 = s.pc ∧ t.pc = s.pc ∧ KeepsMem s t
    ∧ t.run = s.run ∧ t.fault = s.fault ∧ t.params = s.params
    ∧ match s.consoleIn with
      | [] => t.consoleIn = [] ∧ t.consoleOut = s.consoleOut ++ s.params.promptText ∧ KeepsRegs s t [7] ∧ t.cond = s.cond
          ∧ t.pending = some .inEcho
      | b :: rest => t.consoleIn = rest ∧ t.consoleOut = s.consoleOut ++ s.params.promptText ++ [b] ∧ KeepsRegs s t [0, 7]
          ∧ (t.getReg 0).toNat = b.toNat ∧ t.cond = (if b = 0x00#8 then .z else .p) ∧ t.pending = s.pending

/-- A core held in GETC or IN: with no byte it stays as it is; with one, the service finishes as its rule says (the byte in R0
zero-extended, Z or P from it, and for IN the echo), without writing the prompt again or fetching. Derived from 10_state.md R50,
60_exceptions.md R277 and 43_trap.md R213, R217 (decision D11: log 17, unsafe for bytes from 0x80; decisions D14, D15: log 19;
resuming by the next step: log 8). -/
def Obligations.HeldReadResumesWhenAByteArrives : Prop :=
  ∀ s : State, s.run = .running → s.pending = some .getc ∨ s.pending = some .inEcho →
    match s.consoleIn with
    | [] => step s = .next s
    | b :: rest => ∃ t, step s = .next t ∧ t.consoleIn = rest ∧ t.pending = none ∧ KeepsRegs s t [0]
        ∧ (t.getReg 0).toNat = b.toNat ∧ t.cond = (if b = 0x00#8 then .z else .p) ∧ t.pc = s.pc ∧ KeepsMem s t
        ∧ t.run = .running ∧ t.consoleOut = s.consoleOut ++ (if s.pending = some .inEcho then [b] else [])

/-- HALT writes HALT_TEXT, whatever it is, moves to HALTED, and leaves R7 and `pc` at `pc+`. Derived from 43_trap.md R219
(decision D13: log 5). -/
def Obligations.HaltStopsTheMachine : Prop :=
  ∀ s : State, ∃ t, exec .halt s = .next t ∧ t.run = .halted ∧ t.consoleOut = s.consoleOut ++ s.params.haltText
    ∧ t.consoleIn = s.consoleIn ∧ t.getReg 7 = s.pc ∧ KeepsRegs s t [7] ∧ t.pc = s.pc ∧ t.cond = s.cond ∧ KeepsMem s t
    ∧ t.fault = s.fault ∧ t.pending = s.pending ∧ t.params = s.params

/-- A TRAP with an unrecognized vector writes R7, writes nothing to the console and stops in FAULT_TRAP with the word, its
address and the vector recorded. Derived from 43_trap.md R220 and 60_exceptions.md R252 (the record: decision D16, log 18;
the word's opcode number: decision D2, log 12). -/
def Obligations.UnknownVectorIsFatalAfterTheLink : Prop :=
  ∀ (u : BitVec 4) (v : BitVec 8) (s : State), v.toNat < 0x20 ∨ 0x25 < v.toNat →
    ∃ t, exec (.trap u v) s = .next t ∧ t.run = .faultTrap ∧ t.fault = some ⟨.trap, 0b1111#4 ++ u ++ v, s.pc - 1#16, v⟩
      ∧ t.getReg 7 = s.pc ∧ KeepsRegs s t [7] ∧ t.pc = s.pc ∧ t.cond = s.cond ∧ KeepsMem s t ∧ KeepsConsole s t

/-- RTI and RES, whatever bits 11 to 0 hold: FatalDecodeError with the whole word and its address recorded, and nothing else
changes. Derived from 44_unimplemented.md R240, R241 and 60_exceptions.md R252, R253 (the record: decision D16, log 18). -/
def Obligations.RtiAndResAreFatalAtDecode : Prop :=
  ∀ (x : BitVec 12) (s : State),
    (∃ t, exec (.rti x) s = .next t ∧ t.run = .faultDecode ∧ t.fault = some ⟨.decode, 0x8#4 ++ x, s.pc - 1#16, 0x00#8⟩
      ∧ t.pc = s.pc ∧ t.cond = s.cond ∧ KeepsRegs s t [] ∧ KeepsMem s t ∧ KeepsConsole s t)
    ∧ ∃ t, exec (.res x) s = .next t ∧ t.run = .faultDecode ∧ t.fault = some ⟨.decode, 0xD#4 ++ x, s.pc - 1#16, 0x00#8⟩
      ∧ t.pc = s.pc ∧ t.cond = s.cond ∧ KeepsRegs s t [] ∧ KeepsMem s t ∧ KeepsConsole s t

/-! Reset and launch. -/

/-- After reset, and after every launch whatever the images and their origins, `pc` is 0x3000 and `cond` is Z.
Formalises 10_state.md R34 and R39. -/
def Obligations.LaunchStartsAt3000WithZero : Prop :=
  State.reset.pc = 0x3000#16 ∧ State.reset.cond = .z
    ∧ ∀ (images : List (List Byte)) (s : State), State.launch images = some s → s.pc = 0x3000#16 ∧ s.cond = .z

/-- The rest of the reset state: registers 0x0000 (decision D5, log 3), every word of memory 0x0000, RUNNING, no fault record,
nothing written to the console, not inside a service, the policy `ignore` (decision D4, log 4); and a launch changes memory
alone. Derived from 70_reset_and_hazards.md R290, R291. -/
def Obligations.ResetStateIsAsListed : Prop :=
  (∀ r : Reg, State.reset.getReg r = 0x0000#16) ∧ (∀ a : Word, State.reset.rawRead a = 0x0000#16)
    ∧ State.reset.run = .running ∧ State.reset.fault = none ∧ State.reset.consoleOut = [] ∧ State.reset.pending = none
    ∧ State.reset.params.unusedBits = .ignore
    ∧ ∀ (images : List (List Byte)) (s : State), State.launch images = some s → s = { State.reset with mem := s.mem }

/-- An image is a big-endian origin word and then words, placed at consecutive addresses from the origin; words past 0xFFFF
and an odd last byte are not loaded; every other word of memory stays. Derived from 70_reset_and_hazards.md R293 (decision
D18, log 20). -/
def Obligations.LoadPlacesTheWordsFromTheOrigin : Prop :=
  ∀ (m : Memory) (origin : Word) (ws : List Word) (tail : List Byte), tail.length ≤ 1 →
    ∃ m', loadImage m ((origin :: ws).flatMap (fun w => [w.extractLsb' 8 8, w.extractLsb' 0 8]) ++ tail) = some m'
      ∧ ∀ a : Nat, a < 65536 → Memory.read m' a
          = if h : origin.toNat ≤ a ∧ a - origin.toNat < ws.length then ws[a - origin.toNat]'h.2 else Memory.read m a

/-! The whole machine. -/

/-- The invariant holds at reset, and after every launch. Derived from 20_memory.md R70, R72 and 10_state.md R41. -/
def Obligations.ResetAndLaunchMeetTheInvariant : Prop :=
  State.reset.Inv ∧ ∀ (images : List (List Byte)) (s : State), State.launch images = some s → s.Inv

/-- From every state that meets the invariant, reached by a run or not, a step gives a state that meets it: memory stays in its
canonical form; a fault record is there exactly in the fault states and names a word that raises that error, one address
before `pc`; HALTED, FAULT_TRAP and an unfinished service have `pc+` in R7. Derived from 10_state.md R41, 60_exceptions.md
R250 to R253, R277 (decision D16: log 18; the canonical form: log 1; the unfinished service: log 8, log 9). -/
def Obligations.StepKeepsTheInvariant : Prop :=
  ∀ s t : State, s.Inv → step s = .next t → t.Inv

/-- Under every schedule of core steps, deliveries and termination, from every state that meets the invariant: it still holds,
the parameters are the same, and `console.out` has only grown.
Derived from 60_exceptions.md R263, R270 to R272, 10_state.md R63 (decisions D14, D15: log 19). -/
def Obligations.EveryScheduleKeepsTheInvariant : Prop :=
  ∀ (es : List Event) (s t : State), s.Inv → s.runEvents es = some t →
    t.Inv ∧ t.params = s.params ∧ ∃ bs : List Byte, t.consoleOut = s.consoleOut ++ bs

/-- A run ends only by HALT, a fatal decode error, a fatal trap error or the host's termination, each by its own cause; and a
RUNNING core always has a step. Derived from 10_state.md R51, 43_trap.md R219 and 60_exceptions.md R250, R251, R272: that a
core held in a read or inside an endless walk has a step is the model's (log 8, log 9), the unused bits are fatal under one
policy (decision D4, log 4), the final states are decision D17's, and when the host may terminate is decision D15's (log 19). -/
def Obligations.RunEndsOnlyByHaltFaultOrTermination : Prop :=
  (∀ (s t : State) (e : Event), s.run = .running → s.apply e = some t → t.run ≠ .running →
    (e = .terminate ∧ t.run = .terminated)
    ∨ (e = .core ∧ s.pending = none ∧
        ((t.run = .faultDecode ∧ fatalWord s.params.unusedBits s.fetch.1 = true)
          ∨ (t.run = .halted ∧ fatalWord s.params.unusedBits s.fetch.1 = false
              ∧ trapVector (decode s.fetch.1) = some 0x25#8)
          ∨ (t.run = .faultTrap ∧ fatalWord s.params.unusedBits s.fetch.1 = false
              ∧ ∃ v, trapVector (decode s.fetch.1) = some v ∧ (v.toNat < 0x20 ∨ 0x25 < v.toNat)))))
  ∧ ∀ s : State, s.run = .running → ∃ t, step s = .next t

/-- FatalTrapError is raised in the execute phase by exactly one cause: a TRAP whose vector is outside 0x20..0x25.
Formalises 60_exceptions.md R251. -/
def Obligations.FatalTrapErrorHasOneCause : Prop :=
  ∀ (i : Instr) (s t : State), s.run = .running → exec i s = .next t →
    (t.run = .faultTrap ↔ ∃ v, trapVector i = some v ∧ (v.toNat < 0x20 ∨ 0x25 < v.toNat))

/-- The table of who writes a general register: DR of ADD, AND, NOT and the loads with LEA, with the flags from it; R7 by
JSR, JSRR and TRAP, with no flags; R0 by GETC and IN, with the flags from it; nothing else. And every register is readable and
writable: some instruction, in every state, writes it with one more than it held. Derived from 10_state.md R31: that GETC and IN
with no byte waiting answer a held state, with the flags kept, is the model's (R50, 60_exceptions.md R272; log 8); the read
that is resumed later, which writes R0 and the flags, is `HeldReadResumesWhenAByteArrives`. -/
def Obligations.RegistersAreWrittenOnlyByTheTable : Prop :=
  (∀ (i : Instr) (s t : State), exec i s = .next t →
    (∀ r : Reg, t.getReg r ≠ s.getReg r → destReg i = some r ∨ (writesLink i = true ∧ r = 7) ∨ (readsChar i = true ∧ r = 0))
    ∧ (∀ dr, destReg i = some dr → t.cond = condOf (t.getReg dr))
    ∧ (writesLink i = true → t.getReg 7 = s.pc)
    ∧ (readsChar i = true → s.consoleIn ≠ [] → t.cond = condOf (t.getReg 0))
    ∧ (destReg i = none → (readsChar i = false ∨ s.consoleIn = []) → t.cond = s.cond))
  ∧ ∀ r : Reg, ∃ i, ∀ s : State, ∃ t, exec i s = .next t ∧ t.getReg r = s.getReg r + 1#16

/-- `cond` is written only by setcc, where R31's table says so, but for GETC and IN with no byte waiting, which keep it; and it
is read by BR alone: any other instruction gives the same result whatever `cond` held, memory included, but for `cond` itself
where it is not set. Derived from 10_state.md R38 and R31: the held state GETC and IN answer with no byte waiting is the model's
(R50; log 8); the read that is resumed later, which sets the flags, is `HeldReadResumesWhenAByteArrives`. -/
def Obligations.CondIsReadOnlyByBr : Prop :=
  ∀ (i : Instr) (s t : State), exec i s = .next t →
    ((destReg i = none ∧ (readsChar i = false ∨ s.consoleIn = [])) → t.cond = s.cond)
    ∧ (∀ dr, destReg i = some dr → t = t.setcc dr)
    ∧ (readsChar i = true → s.consoleIn ≠ [] → t = t.setcc 0)
    ∧ ((∀ nzp off9, i ≠ .br nzp off9) → ∀ c : Cond, ∃ t', exec i (s.setCond c) = .next t' ∧ t'.setCond .z = t.setCond .z
        ∧ (t'.cond = t.cond ∨ (t'.cond = c ∧ t.cond = s.cond)))

/-- A step changes a word of memory only where its instruction stores, or by the poll of its own fetch or read of KBSR: then the
word is KBSR, and ends READY with the key consumed or 0x0000 with none waiting, or it is KBDR, and ends holding the key
consumed; and only a step that fetches does either. Derived from 20_memory.md R71, R77, R78, R84, R86 and 43_trap.md R212
(decisions D6, D7, D8, D9: log 14, log 15, log 16). -/
def Obligations.MemoryIsWrittenOnlyByStoresAndThePoll : Prop :=
  ∀ (s t : State) (a : Word), step s = .next t → t.rawRead a ≠ s.rawRead a →
    s.pending = none
    ∧ ((∃ i, decodeUnder s.params.unusedBits s.fetch.1 = .ok i ∧ storeAddr i s.fetch.2 = some a)
      ∨ (PolledWord s t a
        ∧ (s.pc = 0xFE00#16
          ∨ ∃ i, decodeUnder s.params.unusedBits s.fetch.1 = .ok i ∧ 0xFE00#16 ∈ readAddrs i s.fetch.2)))

/-- A step only appends to `console.out`, and takes at most one byte, the first, from `console.in`. Derived from 10_state.md
R44, R61, R62 and 42_load_store.md R181 (decisions D7, D14, D21: log 15, log 8, log 22). -/
def Obligations.StepAppendsOutputAndTakesAtMostOneByte : Prop :=
  ∀ s t : State, step s = .next t →
    (∃ bs : List Byte, t.consoleOut = s.consoleOut ++ bs)
    ∧ (t.consoleIn = s.consoleIn ∨ ∃ k, s.consoleIn = k :: t.consoleIn)

/-- The host's two moves on a running core: a byte goes to the end of `console.in` and nothing else changes; termination, at a
boundary or in a held read, makes the run TERMINATED and leaves every register, flag, word and stream as it stands, and is not
possible inside a string walk. Derived from 60_exceptions.md R270, R272 (decisions D14, D15: log 19). -/
def Obligations.HostDeliversOrTerminates : Prop :=
  ∀ (s : State) (b : Byte), s.run = .running →
    s.deliver b = some { s with consoleIn := s.consoleIn ++ [b] }
    ∧ (s.pending ≠ some .puts → s.pending ≠ some .putsp → ∃ t, s.terminate = some t ∧ t.run = .terminated ∧ t.pc = s.pc
        ∧ t.cond = s.cond ∧ KeepsRegs s t [] ∧ KeepsMem s t ∧ KeepsConsole s t)
    ∧ (s.pending = some .puts ∨ s.pending = some .putsp → s.terminate = none)
end

