-- ==== Sys2Proof/Laws/Decode.lean ====
section
/-! SUPPORT. Cutting a field out of a word built from fields. -/

namespace Sys2Proof

theorem regOfBits_regBits (r : Reg) : regOfBits (regBits r) = r := rfl

theorem regBits_regOfBits (b : BitVec 3) : regBits (regOfBits b) = b := rfl

/-- A register field holds the register whose bits stand there. -/
theorem regAt_eq {w : Word} {lo : Nat} {r : Reg} (h : w.extractLsb' lo 3 = regBits r) : regAt w lo = r := by
  simp only [regAt, h, regOfBits_regBits]

/-- The bits of a register field. -/
theorem regBits_regAt (w : Word) (lo : Nat) : regBits (regAt w lo) = w.extractLsb' lo 3 := rfl

end Sys2Proof
end

