-- ==== Sys2Proof/Laws/State.lean ====
section
/-! SUPPORT. One lemma per field per update of the state, each by unfolding, for simp. -/

namespace Sys2Proof.Machine

variable (s : State)

/-! `State.setReg` -/

@[simp] theorem State.setReg_pc (r : Reg) (v : Word) : (s.setReg r v).pc = s.pc := rfl
@[simp] theorem State.setReg_cond (r : Reg) (v : Word) : (s.setReg r v).cond = s.cond := rfl
@[simp] theorem State.setReg_run (r : Reg) (v : Word) : (s.setReg r v).run = s.run := rfl
@[simp] theorem State.setReg_fault (r : Reg) (v : Word) : (s.setReg r v).fault = s.fault := rfl
@[simp] theorem State.setReg_mem (r : Reg) (v : Word) : (s.setReg r v).mem = s.mem := rfl
@[simp] theorem State.setReg_consoleIn (r : Reg) (v : Word) : (s.setReg r v).consoleIn = s.consoleIn := rfl
@[simp] theorem State.setReg_consoleOut (r : Reg) (v : Word) : (s.setReg r v).consoleOut = s.consoleOut := rfl
@[simp] theorem State.setReg_pending (r : Reg) (v : Word) : (s.setReg r v).pending = s.pending := rfl
@[simp] theorem State.setReg_params (r : Reg) (v : Word) : (s.setReg r v).params = s.params := rfl
@[simp] theorem State.setReg_rawRead (r : Reg) (v : Word) (q : Word) : (s.setReg r v).rawRead q = s.rawRead q := rfl

/-! `State.setPc` -/

@[simp] theorem State.setPc_cond (v : Word) : (s.setPc v).cond = s.cond := rfl
@[simp] theorem State.setPc_run (v : Word) : (s.setPc v).run = s.run := rfl
@[simp] theorem State.setPc_fault (v : Word) : (s.setPc v).fault = s.fault := rfl
@[simp] theorem State.setPc_mem (v : Word) : (s.setPc v).mem = s.mem := rfl
@[simp] theorem State.setPc_consoleIn (v : Word) : (s.setPc v).consoleIn = s.consoleIn := rfl
@[simp] theorem State.setPc_consoleOut (v : Word) : (s.setPc v).consoleOut = s.consoleOut := rfl
@[simp] theorem State.setPc_pending (v : Word) : (s.setPc v).pending = s.pending := rfl
@[simp] theorem State.setPc_params (v : Word) : (s.setPc v).params = s.params := rfl
@[simp] theorem State.setPc_getReg (v : Word) (q : Reg) : (s.setPc v).getReg q = s.getReg q := rfl
@[simp] theorem State.setPc_rawRead (v : Word) (q : Word) : (s.setPc v).rawRead q = s.rawRead q := rfl
@[simp] theorem State.setPc_pc (v : Word) : (s.setPc v).pc = v := rfl

/-! `State.setCond` -/

@[simp] theorem State.setCond_pc (c : Cond) : (s.setCond c).pc = s.pc := rfl
@[simp] theorem State.setCond_run (c : Cond) : (s.setCond c).run = s.run := rfl
@[simp] theorem State.setCond_fault (c : Cond) : (s.setCond c).fault = s.fault := rfl
@[simp] theorem State.setCond_mem (c : Cond) : (s.setCond c).mem = s.mem := rfl
@[simp] theorem State.setCond_consoleIn (c : Cond) : (s.setCond c).consoleIn = s.consoleIn := rfl
@[simp] theorem State.setCond_consoleOut (c : Cond) : (s.setCond c).consoleOut = s.consoleOut := rfl
@[simp] theorem State.setCond_pending (c : Cond) : (s.setCond c).pending = s.pending := rfl
@[simp] theorem State.setCond_params (c : Cond) : (s.setCond c).params = s.params := rfl
@[simp] theorem State.setCond_getReg (c : Cond) (q : Reg) : (s.setCond c).getReg q = s.getReg q := rfl
@[simp] theorem State.setCond_rawRead (c : Cond) (q : Word) : (s.setCond c).rawRead q = s.rawRead q := rfl
@[simp] theorem State.setCond_cond (c : Cond) : (s.setCond c).cond = c := rfl

/-! `State.setRun` -/

@[simp] theorem State.setRun_pc (r : RunState) : (s.setRun r).pc = s.pc := rfl
@[simp] theorem State.setRun_cond (r : RunState) : (s.setRun r).cond = s.cond := rfl
@[simp] theorem State.setRun_fault (r : RunState) : (s.setRun r).fault = s.fault := rfl
@[simp] theorem State.setRun_mem (r : RunState) : (s.setRun r).mem = s.mem := rfl
@[simp] theorem State.setRun_consoleIn (r : RunState) : (s.setRun r).consoleIn = s.consoleIn := rfl
@[simp] theorem State.setRun_consoleOut (r : RunState) : (s.setRun r).consoleOut = s.consoleOut := rfl
@[simp] theorem State.setRun_pending (r : RunState) : (s.setRun r).pending = s.pending := rfl
@[simp] theorem State.setRun_params (r : RunState) : (s.setRun r).params = s.params := rfl
@[simp] theorem State.setRun_getReg (r : RunState) (q : Reg) : (s.setRun r).getReg q = s.getReg q := rfl
@[simp] theorem State.setRun_rawRead (r : RunState) (q : Word) : (s.setRun r).rawRead q = s.rawRead q := rfl
@[simp] theorem State.setRun_run (r : RunState) : (s.setRun r).run = r := rfl

/-! `State.setPending` -/

@[simp] theorem State.setPending_pc (p : Option Pending) : (s.setPending p).pc = s.pc := rfl
@[simp] theorem State.setPending_cond (p : Option Pending) : (s.setPending p).cond = s.cond := rfl
@[simp] theorem State.setPending_run (p : Option Pending) : (s.setPending p).run = s.run := rfl
@[simp] theorem State.setPending_fault (p : Option Pending) : (s.setPending p).fault = s.fault := rfl
@[simp] theorem State.setPending_mem (p : Option Pending) : (s.setPending p).mem = s.mem := rfl
@[simp] theorem State.setPending_consoleIn (p : Option Pending) : (s.setPending p).consoleIn = s.consoleIn := rfl
@[simp] theorem State.setPending_consoleOut (p : Option Pending) : (s.setPending p).consoleOut = s.consoleOut := rfl
@[simp] theorem State.setPending_params (p : Option Pending) : (s.setPending p).params = s.params := rfl
@[simp] theorem State.setPending_getReg (p : Option Pending) (q : Reg) : (s.setPending p).getReg q = s.getReg q := rfl
@[simp] theorem State.setPending_rawRead (p : Option Pending) (q : Word) : (s.setPending p).rawRead q = s.rawRead q := rfl
@[simp] theorem State.setPending_pending (p : Option Pending) : (s.setPending p).pending = p := rfl

/-! `State.busWrite` -/

@[simp] theorem State.busWrite_pc (a v : Word) : (s.busWrite a v).pc = s.pc := rfl
@[simp] theorem State.busWrite_cond (a v : Word) : (s.busWrite a v).cond = s.cond := rfl
@[simp] theorem State.busWrite_run (a v : Word) : (s.busWrite a v).run = s.run := rfl
@[simp] theorem State.busWrite_fault (a v : Word) : (s.busWrite a v).fault = s.fault := rfl
@[simp] theorem State.busWrite_consoleIn (a v : Word) : (s.busWrite a v).consoleIn = s.consoleIn := rfl
@[simp] theorem State.busWrite_consoleOut (a v : Word) : (s.busWrite a v).consoleOut = s.consoleOut := rfl
@[simp] theorem State.busWrite_pending (a v : Word) : (s.busWrite a v).pending = s.pending := rfl
@[simp] theorem State.busWrite_params (a v : Word) : (s.busWrite a v).params = s.params := rfl
@[simp] theorem State.busWrite_getReg (a v : Word) (q : Reg) : (s.busWrite a v).getReg q = s.getReg q := rfl
@[simp] theorem State.busWrite_mem (a v : Word) : (s.busWrite a v).mem = Memory.write s.mem a.toNat v := rfl

/-! `State.consoleWrite` -/

@[simp] theorem State.consoleWrite_pc (bs : List Byte) : (s.consoleWrite bs).pc = s.pc := rfl
@[simp] theorem State.consoleWrite_cond (bs : List Byte) : (s.consoleWrite bs).cond = s.cond := rfl
@[simp] theorem State.consoleWrite_run (bs : List Byte) : (s.consoleWrite bs).run = s.run := rfl
@[simp] theorem State.consoleWrite_fault (bs : List Byte) : (s.consoleWrite bs).fault = s.fault := rfl
@[simp] theorem State.consoleWrite_mem (bs : List Byte) : (s.consoleWrite bs).mem = s.mem := rfl
@[simp] theorem State.consoleWrite_consoleIn (bs : List Byte) : (s.consoleWrite bs).consoleIn = s.consoleIn := rfl
@[simp] theorem State.consoleWrite_pending (bs : List Byte) : (s.consoleWrite bs).pending = s.pending := rfl
@[simp] theorem State.consoleWrite_params (bs : List Byte) : (s.consoleWrite bs).params = s.params := rfl
@[simp] theorem State.consoleWrite_getReg (bs : List Byte) (q : Reg) : (s.consoleWrite bs).getReg q = s.getReg q := rfl
@[simp] theorem State.consoleWrite_rawRead (bs : List Byte) (q : Word) : (s.consoleWrite bs).rawRead q = s.rawRead q := rfl
@[simp] theorem State.consoleWrite_consoleOut (bs : List Byte) : (s.consoleWrite bs).consoleOut = s.consoleOut ++ bs := rfl

/-! `State.raiseFatal` -/

@[simp] theorem State.raiseFatal_pc (k : FaultKind) (w : Word) (b : Byte) : (s.raiseFatal k w b).pc = s.pc := rfl
@[simp] theorem State.raiseFatal_cond (k : FaultKind) (w : Word) (b : Byte) : (s.raiseFatal k w b).cond = s.cond := rfl
@[simp] theorem State.raiseFatal_mem (k : FaultKind) (w : Word) (b : Byte) : (s.raiseFatal k w b).mem = s.mem := rfl
@[simp] theorem State.raiseFatal_consoleIn (k : FaultKind) (w : Word) (b : Byte) : (s.raiseFatal k w b).consoleIn = s.consoleIn := rfl
@[simp] theorem State.raiseFatal_consoleOut (k : FaultKind) (w : Word) (b : Byte) : (s.raiseFatal k w b).consoleOut = s.consoleOut := rfl
@[simp] theorem State.raiseFatal_pending (k : FaultKind) (w : Word) (b : Byte) : (s.raiseFatal k w b).pending = s.pending := rfl
@[simp] theorem State.raiseFatal_params (k : FaultKind) (w : Word) (b : Byte) : (s.raiseFatal k w b).params = s.params := rfl
@[simp] theorem State.raiseFatal_getReg (k : FaultKind) (w : Word) (b : Byte) (q : Reg) : (s.raiseFatal k w b).getReg q = s.getReg q := rfl
@[simp] theorem State.raiseFatal_rawRead (k : FaultKind) (w : Word) (b : Byte) (q : Word) : (s.raiseFatal k w b).rawRead q = s.rawRead q := rfl
@[simp] theorem State.raiseFatal_run (k : FaultKind) (w : Word) (b : Byte) : (s.raiseFatal k w b).run = k.runState := rfl
@[simp] theorem State.raiseFatal_fault (k : FaultKind) (w : Word) (b : Byte) : (s.raiseFatal k w b).fault = some ⟨k, w, s.pc - 1#16, b⟩ := rfl

/-! `State.link` -/

@[simp] theorem State.link_pc : (s.link).pc = s.pc := rfl
@[simp] theorem State.link_cond : (s.link).cond = s.cond := rfl
@[simp] theorem State.link_run : (s.link).run = s.run := rfl
@[simp] theorem State.link_fault : (s.link).fault = s.fault := rfl
@[simp] theorem State.link_mem : (s.link).mem = s.mem := rfl
@[simp] theorem State.link_consoleIn : (s.link).consoleIn = s.consoleIn := rfl
@[simp] theorem State.link_consoleOut : (s.link).consoleOut = s.consoleOut := rfl
@[simp] theorem State.link_pending : (s.link).pending = s.pending := rfl
@[simp] theorem State.link_params : (s.link).params = s.params := rfl
@[simp] theorem State.link_rawRead (q : Word) : (s.link).rawRead q = s.rawRead q := rfl

/-! `State.setcc` -/

@[simp] theorem State.setcc_pc (r : Reg) : (s.setcc r).pc = s.pc := rfl
@[simp] theorem State.setcc_run (r : Reg) : (s.setcc r).run = s.run := rfl
@[simp] theorem State.setcc_fault (r : Reg) : (s.setcc r).fault = s.fault := rfl
@[simp] theorem State.setcc_mem (r : Reg) : (s.setcc r).mem = s.mem := rfl
@[simp] theorem State.setcc_consoleIn (r : Reg) : (s.setcc r).consoleIn = s.consoleIn := rfl
@[simp] theorem State.setcc_consoleOut (r : Reg) : (s.setcc r).consoleOut = s.consoleOut := rfl
@[simp] theorem State.setcc_pending (r : Reg) : (s.setcc r).pending = s.pending := rfl
@[simp] theorem State.setcc_params (r : Reg) : (s.setcc r).params = s.params := rfl
@[simp] theorem State.setcc_getReg (r : Reg) (q : Reg) : (s.setcc r).getReg q = s.getReg q := rfl
@[simp] theorem State.setcc_rawRead (r : Reg) (q : Word) : (s.setcc r).rawRead q = s.rawRead q := rfl

/-! `State.writeResult` -/

@[simp] theorem State.writeResult_pc (r : Reg) (v : Word) : (s.writeResult r v).pc = s.pc := rfl
@[simp] theorem State.writeResult_run (r : Reg) (v : Word) : (s.writeResult r v).run = s.run := rfl
@[simp] theorem State.writeResult_fault (r : Reg) (v : Word) : (s.writeResult r v).fault = s.fault := rfl
@[simp] theorem State.writeResult_mem (r : Reg) (v : Word) : (s.writeResult r v).mem = s.mem := rfl
@[simp] theorem State.writeResult_consoleIn (r : Reg) (v : Word) : (s.writeResult r v).consoleIn = s.consoleIn := rfl
@[simp] theorem State.writeResult_consoleOut (r : Reg) (v : Word) : (s.writeResult r v).consoleOut = s.consoleOut := rfl
@[simp] theorem State.writeResult_pending (r : Reg) (v : Word) : (s.writeResult r v).pending = s.pending := rfl
@[simp] theorem State.writeResult_params (r : Reg) (v : Word) : (s.writeResult r v).params = s.params := rfl
@[simp] theorem State.writeResult_rawRead (r : Reg) (v : Word) (q : Word) : (s.writeResult r v).rawRead q = s.rawRead q := rfl

/-! The registers and the flags after a write. -/

theorem State.setReg_getReg (r : Reg) (v : Word) (q : Reg) :
    (s.setReg r v).getReg q = if q = r then v else s.getReg q := by
  by_cases h : q = r
  · subst h; simp [State.getReg, State.setReg]
  · have h' : r.val ≠ q.val := fun e => h (Fin.ext e.symm)
    simp [State.getReg, State.setReg, h, h']

@[simp] theorem State.setReg_getReg_same (r : Reg) (v : Word) : (s.setReg r v).getReg r = v := by
  simp [State.setReg_getReg]

theorem State.setReg_getReg_ne {r q : Reg} (v : Word) (h : q ≠ r) : (s.setReg r v).getReg q = s.getReg q := by
  simp [State.setReg_getReg, h]

theorem State.link_getReg (q : Reg) : s.link.getReg q = if q = 7 then s.pc else s.getReg q :=
  s.setReg_getReg 7 s.pc q

@[simp] theorem State.link_getReg_seven : s.link.getReg 7 = s.pc := by simp [State.link_getReg]

@[simp] theorem State.setcc_cond (r : Reg) : (s.setcc r).cond = condOf (s.getReg r) := rfl

theorem State.writeResult_getReg (r : Reg) (v : Word) (q : Reg) :
    (s.writeResult r v).getReg q = if q = r then v else s.getReg q := s.setReg_getReg r v q

@[simp] theorem State.writeResult_getReg_same (r : Reg) (v : Word) : (s.writeResult r v).getReg r = v :=
  s.setReg_getReg_same r v

theorem State.writeResult_getReg_ne {r q : Reg} (v : Word) (h : q ≠ r) :
    (s.writeResult r v).getReg q = s.getReg q := s.setReg_getReg_ne v h

@[simp] theorem State.writeResult_cond (r : Reg) (v : Word) : (s.writeResult r v).cond = condOf v := by
  simp [State.writeResult]

end Sys2Proof.Machine
end

