-- ==== Sys2Proof/Laws/Ops.lean ====
section
/-! SUPPORT. What each shared operation can do, once: the keyboard poll, the bus read, the fetch, branch and jump. -/

namespace Sys2Proof.Machine

theorem zext_eq (b : Byte) : zext b = BitVec.ofNat 16 b.toNat := by
  apply BitVec.eq_of_toNat_eq; simp [zext]

theorem zext_toNat (b : Byte) : (zext b).toNat = b.toNat := by
  have := b.isLt
  simp only [zext_eq, BitVec.toNat_ofNat]; omega

/-- The flag of a value, with the sign read as bit 15 (00_scope.md R14). -/
theorem condOf_eq (v : Word) :
    condOf v = if v = 0x0000#16 then .z else if v.getLsbD 15 then .n else .p := by
  unfold condOf; rw [BitVec.msb_eq_getLsbD_last]

/-- A character is never negative (43_trap.md R213). -/
theorem condOf_zext (b : Byte) : condOf (zext b) = if b = 0x00#8 then .z else .p := by
  have hz : zext b = 0#16 ↔ b = 0#8 := by
    rw [← BitVec.toNat_inj, ← BitVec.toNat_inj, zext_toNat]; simp
  have hm : (zext b).msb = false := by
    have := b.isLt
    rw [BitVec.msb_eq_false_iff_two_mul_lt, zext_toNat]; omega
  simp [condOf, hz, hm]

/-! The poll and the bus read. -/

theorem State.keyboardPoll_nil {s : State} (h : s.consoleIn = []) :
    s.keyboardPoll = s.busWrite Config.kbsrAddr 0x0000#16 := by
  simp [State.keyboardPoll, State.consoleRead, h]

theorem State.keyboardPoll_cons {s : State} {k : Byte} {rest : List Byte} (h : s.consoleIn = k :: rest) :
    s.keyboardPoll = (({ s with consoleIn := rest }).busWrite Config.kbsrAddr Config.kbsrReady).busWrite
      Config.kbdrAddr (zext k) := by
  simp [State.keyboardPoll, State.consoleRead, h]

theorem State.keyboardPoll_consoleIn (s : State) : s.keyboardPoll.consoleIn = s.consoleIn.tail := by
  cases h : s.consoleIn with
  | nil => simp [State.keyboardPoll_nil h, h]
  | cons k rest => simp [State.keyboardPoll_cons h]

theorem State.afterRead_kbsr (s : State) : s.afterRead 0xFE00#16 = s.keyboardPoll := if_pos rfl

theorem State.afterRead_ne (s : State) {a : Word} (h : a ≠ 0xFE00#16) : s.afterRead a = s := if_neg h

@[simp] theorem State.afterRead_pc (s : State) (a : Word) : (s.afterRead a).pc = s.pc := by
  by_cases h : a = 0xFE00#16
  · subst h; rw [State.afterRead_kbsr]
    cases hc : s.consoleIn with
    | nil => rw [State.keyboardPoll_nil hc]; rfl
    | cons k rest => rw [State.keyboardPoll_cons hc]; rfl
  · rw [State.afterRead_ne s h]

@[simp] theorem State.afterRead_cond (s : State) (a : Word) : (s.afterRead a).cond = s.cond := by
  by_cases h : a = 0xFE00#16
  · subst h; rw [State.afterRead_kbsr]
    cases hc : s.consoleIn with
    | nil => rw [State.keyboardPoll_nil hc]; rfl
    | cons k rest => rw [State.keyboardPoll_cons hc]; rfl
  · rw [State.afterRead_ne s h]

@[simp] theorem State.afterRead_run (s : State) (a : Word) : (s.afterRead a).run = s.run := by
  by_cases h : a = 0xFE00#16
  · subst h; rw [State.afterRead_kbsr]
    cases hc : s.consoleIn with
    | nil => rw [State.keyboardPoll_nil hc]; rfl
    | cons k rest => rw [State.keyboardPoll_cons hc]; rfl
  · rw [State.afterRead_ne s h]

@[simp] theorem State.afterRead_fault (s : State) (a : Word) : (s.afterRead a).fault = s.fault := by
  by_cases h : a = 0xFE00#16
  · subst h; rw [State.afterRead_kbsr]
    cases hc : s.consoleIn with
    | nil => rw [State.keyboardPoll_nil hc]; rfl
    | cons k rest => rw [State.keyboardPoll_cons hc]; rfl
  · rw [State.afterRead_ne s h]

@[simp] theorem State.afterRead_consoleOut (s : State) (a : Word) : (s.afterRead a).consoleOut = s.consoleOut := by
  by_cases h : a = 0xFE00#16
  · subst h; rw [State.afterRead_kbsr]
    cases hc : s.consoleIn with
    | nil => rw [State.keyboardPoll_nil hc]; rfl
    | cons k rest => rw [State.keyboardPoll_cons hc]; rfl
  · rw [State.afterRead_ne s h]

@[simp] theorem State.afterRead_pending (s : State) (a : Word) : (s.afterRead a).pending = s.pending := by
  by_cases h : a = 0xFE00#16
  · subst h; rw [State.afterRead_kbsr]
    cases hc : s.consoleIn with
    | nil => rw [State.keyboardPoll_nil hc]; rfl
    | cons k rest => rw [State.keyboardPoll_cons hc]; rfl
  · rw [State.afterRead_ne s h]

@[simp] theorem State.afterRead_params (s : State) (a : Word) : (s.afterRead a).params = s.params := by
  by_cases h : a = 0xFE00#16
  · subst h; rw [State.afterRead_kbsr]
    cases hc : s.consoleIn with
    | nil => rw [State.keyboardPoll_nil hc]; rfl
    | cons k rest => rw [State.keyboardPoll_cons hc]; rfl
  · rw [State.afterRead_ne s h]

@[simp] theorem State.afterRead_regs (s : State) (a : Word) : (s.afterRead a).regs = s.regs := by
  by_cases h : a = 0xFE00#16
  · subst h; rw [State.afterRead_kbsr]
    cases hc : s.consoleIn with
    | nil => rw [State.keyboardPoll_nil hc]; rfl
    | cons k rest => rw [State.keyboardPoll_cons hc]; rfl
  · rw [State.afterRead_ne s h]

@[simp] theorem State.afterRead_getReg (s : State) (a : Word) (r : Reg) : (s.afterRead a).getReg r = s.getReg r := by
  simp [State.getReg]

/-- A bus read takes at most one byte, the first, from `console.in`. -/
theorem State.afterRead_consoleIn (s : State) (a : Word) :
    (s.afterRead a).consoleIn = if a = 0xFE00#16 then s.consoleIn.tail else s.consoleIn := by
  by_cases h : a = 0xFE00#16
  · subst h; rw [State.afterRead_kbsr, State.keyboardPoll_consoleIn]; simp
  · rw [State.afterRead_ne s h, if_neg h]

/-- Memory after a bus read (20_memory.md R77). -/
theorem State.afterRead_rawRead (s : State) (a b : Word) :
    (s.afterRead a).rawRead b =
      if a = 0xFE00#16 then
        match s.consoleIn with
        | [] => if b = 0xFE00#16 then 0x0000#16 else s.rawRead b
        | k :: _ => if b = 0xFE00#16 then 0x8000#16 else if b = 0xFE02#16 then BitVec.ofNat 16 k.toNat else s.rawRead b
      else s.rawRead b := by
  by_cases h : a = 0xFE00#16
  · subst h; rw [State.afterRead_kbsr, if_pos rfl]
    cases hc : s.consoleIn with
    | nil => simp only [State.keyboardPoll_nil hc, State.busWrite_rawRead]; rfl
    | cons k rest =>
      simp only [State.keyboardPoll_cons hc, State.busWrite_rawRead, zext_eq]
      by_cases h1 : b = 0xFE00#16
      · subst h1; simp [Config.kbdrAddr, Config.kbsrAddr, Config.kbsrReady]
      · simp [h1, Config.kbdrAddr, Config.kbsrAddr, State.rawRead]
  · rw [State.afterRead_ne s h, if_neg h]

theorem State.afterRead_wf {s : State} (a : Word) (h : Memory.wf s.mem) : Memory.wf (s.afterRead a).mem := by
  by_cases ha : a = 0xFE00#16
  · subst ha; rw [State.afterRead_kbsr]
    cases hc : s.consoleIn with
    | nil => rw [State.keyboardPoll_nil hc]; exact State.busWrite_wf _ _ h
    | cons k rest =>
      rw [State.keyboardPoll_cons hc]
      exact State.busWrite_wf _ _ (State.busWrite_wf (s := { s with consoleIn := rest }) _ _ h)
  · rw [State.afterRead_ne s ha]; exact h

@[simp] theorem State.busRead_snd (s : State) (a : Word) : (s.busRead a).2 = s.afterRead a := rfl

theorem State.busRead_fst (s : State) (a : Word) : (s.busRead a).1 = (s.afterRead a).rawRead a := rfl

/-- What a bus read answers: away from KBSR the word there, at KBSR READY or 0 (20_memory.md R74, R77). -/
theorem State.busRead_value (s : State) (a : Word) :
    (s.busRead a).1 =
      if a = 0xFE00#16 then (if s.consoleIn.isEmpty then 0x0000#16 else 0x8000#16) else s.rawRead a := by
  rw [State.busRead_fst, State.afterRead_rawRead]
  split
  · subst_vars; cases s.consoleIn <;> simp
  · rfl

/-! Fetch, loads, branch and jump. -/

theorem State.fetch_fst (s : State) : s.fetch.1 = (s.busRead s.pc).1 := rfl

theorem State.fetch_snd (s : State) : s.fetch.2 = (s.afterRead s.pc).setPc (s.pc + 1#16) := rfl

theorem State.loadFrom_eq (s : State) (dr : Reg) (ea : Word) :
    s.loadFrom dr ea = (s.afterRead ea).writeResult dr (s.busRead ea).1 := rfl

theorem State.branch_eq (s : State) (nzp : BitVec 3) (off9 : BitVec 9) :
    s.branch nzp off9 = s.setPc (if taken nzp s.cond then s.pc + sext off9 else s.pc) := by
  unfold State.branch; split <;> rfl

/-- The test of BR, flag by flag (41_control.md R161). -/
theorem taken_eq (nzp : BitVec 3) (c : Cond) :
    taken nzp c = match c with | .n => nzp.getLsbD 2 | .z => nzp.getLsbD 1 | .p => nzp.getLsbD 0 := by
  revert nzp; cases c <;> decide

end Sys2Proof.Machine
end

