-- ==== Sys2Proof/Laws/Trap.lean ====
section
/-! SUPPORT. The trap services: what a read and a string walk can do, once. -/

namespace Sys2Proof.Machine

/-! The blocking reads. -/

theorem State.readGetc_nil {s : State} (h : s.consoleIn = []) : s.readGetc = s.setPending (some .getc) := by
  simp [State.readGetc, State.consoleRead, h]

theorem State.readGetc_cons {s : State} {b : Byte} {rest : List Byte} (h : s.consoleIn = b :: rest) :
    s.readGetc = ({ s with consoleIn := rest }).writeResult 0 (zext b) := by
  simp [State.readGetc, State.consoleRead, h]

theorem State.readEcho_nil {s : State} (h : s.consoleIn = []) : s.readEcho = s.setPending (some .inEcho) := by
  simp [State.readEcho, State.consoleRead, h]

theorem State.readEcho_cons {s : State} {b : Byte} {rest : List Byte} (h : s.consoleIn = b :: rest) :
    s.readEcho = (({ s with consoleIn := rest }).consoleWrite [b]).writeResult 0 (zext b) := by
  simp [State.readEcho, State.consoleRead, h]

/-! The string walks. -/

/-- A walk depends on memory alone. -/
theorem State.walk_congr {s t : State} (emit : Word → List Byte) (h : t.mem = s.mem) (n : Nat) (a : Word) :
    t.walk emit n a = s.walk emit n a := by
  have hr : ∀ b, t.rawRead b = s.rawRead b := fun b => by simp [State.rawRead, h]
  induction n generalizing a with
  | zero => rfl
  | succ n ih => simp only [State.walk, hr, ih]

/-- A walk over non-zero words ended by a zero word writes what each word emits, and ends (43_trap.md R215, R218). -/
theorem State.walk_string (s : State) (emit : Word → List Byte) (n : Nat) (ws : List Word) (a : Word)
    (hn : ws.length < n) (hz : ∀ w ∈ ws, w ≠ 0x0000#16)
    (hw : ∀ k (h : k < ws.length), s.rawRead (a + BitVec.ofNat 16 k) = ws[k])
    (he : s.rawRead (a + BitVec.ofNat 16 ws.length) = 0x0000#16) :
    s.walk emit n a = (ws.flatMap emit, true) := by
  induction ws generalizing n a with
  | nil =>
    obtain ⟨n, rfl⟩ : ∃ m, n = m + 1 := ⟨n - 1, by simp at hn; omega⟩
    have : s.rawRead a = 0#16 := by simpa using he
    simp [State.walk, this]
  | cons w ws ih =>
    obtain ⟨n, rfl⟩ : ∃ m, n = m + 1 := ⟨n - 1, by simp at hn; omega⟩
    have h0 : s.rawRead a = w := by
      simpa using show s.rawRead (a + BitVec.ofNat 16 0) = w from hw 0 (by simp)
    have hnext : ∀ k : Nat, a + 1#16 + BitVec.ofNat 16 k = a + BitVec.ofNat 16 (k + 1) := fun k => by
      rw [BitVec.add_assoc, BitVec.ofNat_add, BitVec.add_comm (1#16)]
    have hrest := ih n (a + 1#16) (by simpa using hn) (fun x hx => hz x (by simp [hx]))
      (fun k hk => by rw [hnext]; exact hw (k + 1) (by simpa using hk)) (by rw [hnext]; simpa using he)
    simp [State.walk, h0, hz w (by simp), hrest]

/-- A walk that meets no zero word does not end, and writes at least a byte a word (43_trap.md R216). -/
theorem State.walk_endless (s : State) (emit : Word → List Byte) (n : Nat) (a : Word)
    (hz : ∀ b : Word, s.rawRead b ≠ 0x0000#16) (hemit : ∀ w, 1 ≤ (emit w).length) :
    (s.walk emit n a).2 = false ∧ n ≤ (s.walk emit n a).1.length := by
  induction n generalizing a with
  | zero => simp [State.walk]
  | succ n ih =>
    obtain ⟨h1, h2⟩ := ih (a + 1#16)
    have := hemit (s.rawRead a)
    simp only [State.walk, if_neg (hz a), List.length_append]
    exact ⟨h1, by omega⟩

theorem putsBytes_length (w : Word) : 1 ≤ (putsBytes w).length := by simp [putsBytes]

theorem putspBytes_length (w : Word) : 1 ≤ (putspBytes w).length := by
  unfold putspBytes; split <;> simp

theorem State.writeString_ended {s : State} {emit : Word → List Byte} {p : Pending} {bs : List Byte}
    (h : s.walk emit Config.memWords (s.getReg 0) = (bs, true)) : s.writeString emit p = s.consoleWrite bs := by
  simp [State.writeString, h]

/-- A string service only appends to `console.out`, and may stay inside itself. -/
theorem State.writeString_cases (s : State) (emit : Word → List Byte) (p : Pending) :
    ∃ bs, s.writeString emit p = s.consoleWrite bs ∨ s.writeString emit p = (s.consoleWrite bs).setPending (some p) := by
  unfold State.writeString; split
  · exact ⟨_, .inl rfl⟩
  · exact ⟨_, .inr rfl⟩

/-! The dispatch. -/

/-- The vectors with a service are 0x20 to 0x25 (43_trap.md R210). -/
theorem serviceOf_eq_none_iff (v : BitVec 8) : serviceOf v = none ↔ v.toNat < 0x20 ∨ 0x25 < v.toNat := by
  revert v; decide

end Sys2Proof.Machine
end

