-- ==== Sys2Proof/Laws/Step.lean ====
section
/-! SUPPORT. What a step can do, once: it stops, goes on inside a service, executes, or rejects the word. -/

namespace Sys2Proof.Machine

theorem step_of_stopped {s : State} (h : s.run ≠ .running) : step s = .fault (.stopped s.run) := by
  simp [step, cycle, h]

theorem step_of_pending {s : State} {p : Pending} (hr : s.run = .running) (hp : s.pending = some p) :
    step s = .next (s.resume p) := by
  simp [step, cycle, runningStep, hr, hp]

theorem step_of_boundary {s : State} (hr : s.run = .running) (hp : s.pending = none) :
    step s = decodeAndExecute s.fetch.1 s.fetch.2 := by
  simp [step, cycle, runningStep, hr, hp]

theorem fetch_params (s : State) : s.fetch.2.params = s.params := by simp [State.fetch_snd]

theorem decodeAndExecute_ok {w : Word} {s : State} {i : Instr} (h : decodeUnder s.params.unusedBits w = .ok i) :
    decodeAndExecute w s = exec i s := by
  simp [decodeAndExecute, h]

/-- The decode phase rejects a word only under `fatal`, and names the word it rejected (10_state.md R47). -/
theorem decodeUnder_error {policy : UnusedBitsPolicy} {w : Word} {e : DecodeError} (h : decodeUnder policy w = .error e) :
    policy = .fatal ∧ (decode w).fatalOpcode = false ∧ (decode w).canonical = false ∧ e = .unusedBits w := by
  unfold decodeUnder at h
  split at h
  · cases h
  · rename_i hf
    cases policy with
    | ignore => cases h
    | fatal =>
      simp only at h
      split at h
      · cases h
      · rename_i hc
        exact ⟨rfl, by simpa using hf, by simpa using hc, (Except.error.inj h).symm⟩

/-- The decode phase answers the decoded instruction or rejects. -/
theorem decodeUnder_ok {policy : UnusedBitsPolicy} {w : Word} {i : Instr} (h : decodeUnder policy w = .ok i) :
    i = decode w := by
  unfold decodeUnder at h
  split at h
  · exact (Except.ok.inj h).symm
  · cases policy with
    | ignore => exact (Except.ok.inj h).symm
    | fatal =>
      simp only at h
      split at h
      · exact (Except.ok.inj h).symm
      · cases h

/-- Every way a step answers a next state. -/
theorem step_next_cases {s t : State} (h : step s = .next t) :
    s.run = .running ∧
      ((∃ p, s.pending = some p ∧ t = s.resume p)
        ∨ (s.pending = none ∧ ∃ i, decodeUnder s.params.unusedBits s.fetch.1 = .ok i ∧ exec i s.fetch.2 = .next t)
        ∨ (s.pending = none ∧ decodeUnder s.params.unusedBits s.fetch.1 = .error (.unusedBits s.fetch.1)
            ∧ t = s.fetch.2.raiseDecode s.fetch.1)) := by
  by_cases hr : s.run = .running
  · refine ⟨hr, ?_⟩
    cases hp : s.pending with
    | some p =>
      rw [step_of_pending hr hp] at h
      exact .inl ⟨p, rfl, (Host.Outcome.next.inj h).symm⟩
    | none =>
      rw [step_of_boundary hr hp] at h
      unfold decodeAndExecute at h
      rw [fetch_params] at h
      cases hd : decodeUnder s.params.unusedBits s.fetch.1 with
      | ok i =>
        rw [hd] at h
        exact .inr (.inl ⟨rfl, i, rfl, h⟩)
      | error e =>
        obtain ⟨-, -, -, rfl⟩ := decodeUnder_error hd
        rw [hd] at h
        exact .inr (.inr ⟨rfl, rfl, (Host.Outcome.next.inj h).symm⟩)
  · rw [step_of_stopped hr] at h; cases h

/-! The shared services, as a read or a walk can leave the state. -/

/-- What a step of a service leaves alone, whichever way it goes. -/
structure ServiceFrame (s t : State) : Prop where
  mem : t.mem = s.mem
  pc : t.pc = s.pc
  fault : t.fault = s.fault
  params : t.params = s.params
  regs : ∀ r : Reg, r ≠ 0 → t.getReg r = s.getReg r
  out : ∃ bs, t.consoleOut = s.consoleOut ++ bs

theorem State.readGetc_frame (s : State) :
    ServiceFrame s s.readGetc ∧ s.readGetc.run = s.run ∧ s.readGetc.consoleIn = s.consoleIn.tail := by
  cases h : s.consoleIn with
  | nil => rw [State.readGetc_nil h]; exact ⟨⟨rfl, rfl, rfl, rfl, fun _ _ => rfl, [], by simp⟩, rfl, by simp [h]⟩
  | cons b rest =>
    rw [State.readGetc_cons h]
    exact ⟨⟨rfl, rfl, rfl, rfl, fun r hr => State.writeResult_getReg_ne _ _ hr, [], by simp⟩, rfl, rfl⟩

theorem State.readEcho_frame (s : State) :
    ServiceFrame s s.readEcho ∧ s.readEcho.run = s.run ∧ s.readEcho.consoleIn = s.consoleIn.tail := by
  cases h : s.consoleIn with
  | nil => rw [State.readEcho_nil h]; exact ⟨⟨rfl, rfl, rfl, rfl, fun _ _ => rfl, [], by simp⟩, rfl, by simp [h]⟩
  | cons b rest =>
    rw [State.readEcho_cons h]
    exact ⟨⟨rfl, rfl, rfl, rfl, fun r hr => State.writeResult_getReg_ne _ _ hr, [b], rfl⟩, rfl, rfl⟩

theorem State.writeString_frame (s : State) (emit : Word → List Byte) (p : Pending) :
    ServiceFrame s (s.writeString emit p) ∧ (s.writeString emit p).run = s.run
      ∧ (s.writeString emit p).consoleIn = s.consoleIn ∧ (s.writeString emit p).regs = s.regs
      ∧ (s.writeString emit p).cond = s.cond := by
  obtain ⟨bs, h | h⟩ := s.writeString_cases emit p <;> rw [h] <;>
    exact ⟨⟨rfl, rfl, rfl, rfl, fun _ _ => rfl, bs, rfl⟩, rfl, rfl, rfl, rfl⟩

/-- Going on inside a service keeps memory, `pc`, R1 to R7 and the run state, and takes at most one byte. -/
theorem State.resume_frame (s : State) (p : Pending) :
    ServiceFrame s (s.resume p) ∧ (s.resume p).run = s.run
      ∧ ((s.resume p).consoleIn = s.consoleIn ∨ (s.resume p).consoleIn = s.consoleIn.tail) := by
  have lift : ∀ t : State, ServiceFrame (s.setPending none) t → ServiceFrame s t := fun t h =>
    ⟨h.mem, h.pc, h.fault, h.params, h.regs, h.out⟩
  cases p with
  | getc =>
    obtain ⟨h1, h2, h3⟩ := (s.setPending none).readGetc_frame
    exact ⟨lift _ h1, h2, .inr h3⟩
  | inEcho =>
    obtain ⟨h1, h2, h3⟩ := (s.setPending none).readEcho_frame
    exact ⟨lift _ h1, h2, .inr h3⟩
  | puts =>
    obtain ⟨h1, h2, h3, -⟩ := (s.setPending none).writeString_frame putsBytes .puts
    exact ⟨lift _ h1, h2, .inl h3⟩
  | putsp =>
    obtain ⟨h1, h2, h3, -⟩ := (s.setPending none).writeString_frame putspBytes .putsp
    exact ⟨lift _ h1, h2, .inl h3⟩

/-- A service after TRAP's link keeps memory and `pc`, writes no register but R0 and R7, and takes at most one byte. -/
theorem State.serve_frame (s : State) (v : Service) :
    ServiceFrame s.link (s.link.serve v) ∧ (s.link.serve v).run = (if v = .halt then .halted else s.run)
      ∧ ((s.link.serve v).consoleIn = s.consoleIn ∨ (s.link.serve v).consoleIn = s.consoleIn.tail) := by
  cases v with
  | getc =>
    obtain ⟨h1, h2, h3⟩ := s.link.readGetc_frame
    exact ⟨h1, h2, .inr h3⟩
  | out => exact ⟨⟨rfl, rfl, rfl, rfl, fun _ _ => rfl, _, rfl⟩, rfl, .inl rfl⟩
  | puts =>
    obtain ⟨h1, h2, h3, -⟩ := s.link.writeString_frame putsBytes .puts
    exact ⟨h1, h2, .inl h3⟩
  | inEcho =>
    obtain ⟨h1, h2, h3⟩ := (s.link.consoleWrite s.link.params.promptText).readEcho_frame
    obtain ⟨bs, hbs⟩ := h1.out
    exact ⟨⟨h1.mem, h1.pc, h1.fault, h1.params, h1.regs, s.link.params.promptText ++ bs, by
      simpa [State.serve, State.serveIn] using hbs⟩, h2, .inr h3⟩
  | putsp =>
    obtain ⟨h1, h2, h3, -⟩ := s.link.writeString_frame putspBytes .putsp
    exact ⟨h1, h2, .inl h3⟩
  | halt => exact ⟨⟨rfl, rfl, rfl, rfl, fun _ _ => rfl, _, rfl⟩, rfl, .inl rfl⟩

end Sys2Proof.Machine
end

