-- ==== Sys2Proof/Laws/Exec.lean ====
section
/-! SUPPORT. What an instruction can do, once: the seven shapes of an execute phase, from which the whole-machine facts
follow. -/

namespace Sys2Proof.Machine

/-- `u` is `s` after the bus reads of one instruction at the addresses listed: none, one, or a pointer and then the data. -/
inductive Reads (s : State) : List Word → State → Prop where
  | none : Reads s [] s
  | one (a : Word) : Reads s [a] (s.afterRead a)
  | two (a : Word) : Reads s [a, (s.busRead a).1] ((s.afterRead a).afterRead (s.busRead a).1)

/-- What bus reads leave alone. -/
structure ReadsFrame (s u : State) : Prop where
  regs : u.regs = s.regs
  pc : u.pc = s.pc
  cond : u.cond = s.cond
  run : u.run = s.run
  fault : u.fault = s.fault
  out : u.consoleOut = s.consoleOut
  pending : u.pending = s.pending
  params : u.params = s.params
  wf : Memory.wf s.mem → Memory.wf u.mem
  read : ∀ a : Word, u.rawRead a ≠ s.rawRead a → a = 0xFE00#16 ∨ a = 0xFE02#16
  input : u.consoleIn = s.consoleIn ∨ u.consoleIn = s.consoleIn.tail

theorem State.afterRead_read_ne {s : State} {a b : Word} (h : (s.afterRead a).rawRead b ≠ s.rawRead b) :
    b = 0xFE00#16 ∨ b = 0xFE02#16 := by
  by_contra hc
  simp only [not_or] at hc
  apply h
  rw [State.afterRead_rawRead]
  split
  · cases s.consoleIn <;> simp [hc.1, hc.2]
  · rfl

/-- The pointer of an indirect access that polled is not KBSR, so the data read does not poll (42_load_store.md R181). -/
theorem State.pointer_of_poll (s : State) : (s.busRead 0xFE00#16).1 ≠ 0xFE00#16 := by
  rw [State.busRead_value, if_pos rfl]; split <;> decide

theorem Reads.frame {s u : State} {l : List Word} (h : Reads s l u) : ReadsFrame s u := by
  cases h with
  | none => exact ⟨rfl, rfl, rfl, rfl, rfl, rfl, rfl, rfl, id, fun _ h => (h rfl).elim, .inl rfl⟩
  | one a =>
    refine ⟨by simp, by simp, by simp, by simp, by simp, by simp, by simp, by simp, State.afterRead_wf a,
      fun _ => State.afterRead_read_ne, ?_⟩
    rw [State.afterRead_consoleIn]; split <;> simp
  | two a =>
    refine ⟨by simp, by simp, by simp, by simp, by simp, by simp, by simp, by simp,
      fun h => State.afterRead_wf _ (State.afterRead_wf a h), fun b hb => ?_, ?_⟩
    · by_cases h1 : (s.afterRead a).rawRead b = s.rawRead b
      · exact State.afterRead_read_ne (h1 ▸ hb)
      · exact State.afterRead_read_ne h1
    · by_cases ha : a = 0xFE00#16
      · subst ha
        rw [State.afterRead_ne _ s.pointer_of_poll, State.afterRead_consoleIn, if_pos rfl]
        exact .inr rfl
      · rw [State.afterRead_ne _ ha, State.afterRead_consoleIn]; split <;> simp

theorem Reads.getReg {s u : State} {l : List Word} (h : Reads s l u) (r : Reg) : u.getReg r = s.getReg r := by
  simp [State.getReg, h.frame.regs]

/-- A word that one bus read changed was polled, and the read was of KBSR (20_memory.md R77, R83). -/
theorem State.afterRead_polled {s : State} {a b : Word} (h : (s.afterRead a).rawRead b ≠ s.rawRead b) :
    a = 0xFE00#16 ∧ PolledWord s (s.afterRead a) b := by
  have ha : a = 0xFE00#16 := by by_contra hc; exact h (by rw [State.afterRead_ne s hc])
  refine ⟨ha, ?_⟩
  have hb := State.afterRead_read_ne h
  subst ha
  have hr := s.afterRead_rawRead 0xFE00#16 b
  have hi := s.afterRead_consoleIn 0xFE00#16
  cases hc : s.consoleIn with
  | nil =>
    rw [hc] at hr hi
    rcases hb with rfl | rfl
    · exact .inl ⟨rfl, .inr ⟨by simpa using hr, hc, by simpa using hi⟩⟩
    · exact (h (by simpa using hr)).elim
  | cons k rest =>
    rw [hc] at hr hi
    have hi : (s.afterRead 0xFE00#16).consoleIn = rest := by simpa using hi
    rcases hb with rfl | rfl
    · exact .inl ⟨rfl, .inl ⟨by simpa using hr, k, by rw [hc, hi]⟩⟩
    · exact .inr ⟨rfl, k, by rw [hc, hi], by simpa using hr⟩

/-- A word that an instruction's bus reads changed was polled, by a read of KBSR. -/
theorem Reads.polled {s u : State} {l : List Word} {b : Word} (h : Reads s l u) (hb : u.rawRead b ≠ s.rawRead b) :
    0xFE00#16 ∈ l ∧ PolledWord s u b := by
  cases h with
  | none => exact (hb rfl).elim
  | one a =>
    obtain ⟨rfl, hp⟩ := State.afterRead_polled hb
    exact ⟨by simp, hp⟩
  | two a =>
    by_cases ha : a = 0xFE00#16
    · subst ha
      rw [State.afterRead_ne _ s.pointer_of_poll] at hb ⊢
      exact ⟨by simp, (State.afterRead_polled hb).2⟩
    · rw [State.afterRead_ne s ha] at hb ⊢
      obtain ⟨he, hp⟩ := State.afterRead_polled hb
      exact ⟨by simp [he], hp⟩

/-- The seven shapes of an execute phase. -/
inductive Effect (i : Instr) (s t : State) : Prop where
  /-- The operate instructions, the loads and LEA. -/
  | result (dr : Reg) (u : State) (v : Word) (hd : destReg i = some dr) (hv : trapVector i = none)
      (hl : writesLink i = false) (hs : storeAddr i s = none) (hu : Reads s (readAddrs i s) u) (ht : t = u.writeResult dr v)
  /-- The stores. -/
  | store (a v : Word) (u : State) (hd : destReg i = none) (hv : trapVector i = none) (hl : writesLink i = false)
      (hs : storeAddr i s = some a) (hu : Reads s (readAddrs i s) u) (ht : t = u.busWrite a v)
  /-- BR, NOP, JMP and RET. -/
  | goto (v : Word) (hd : destReg i = none) (hv : trapVector i = none) (hl : writesLink i = false)
      (hs : storeAddr i s = none) (ht : t = s.setPc v)
  /-- JSR and JSRR. -/
  | call (v : Word) (hd : destReg i = none) (hv : trapVector i = none) (hl : writesLink i = true)
      (hs : storeAddr i s = none) (ht : t = s.link.setPc v)
  /-- A TRAP with a service. -/
  | service (v : BitVec 8) (p : Service) (hd : destReg i = none) (hv : trapVector i = some v) (hl : writesLink i = true)
      (hs : storeAddr i s = none) (hp : serviceOf v = some p) (ht : t = s.link.serve p)
  /-- A TRAP with an unrecognized vector. -/
  | badVector (u : BitVec 4) (v : BitVec 8) (hi : i = .trap u v) (hp : serviceOf v = none)
      (ht : t = s.link.raiseTrap (encode i) v)
  /-- RTI and RES. -/
  | fatal (hd : destReg i = none) (hv : trapVector i = none) (hl : writesLink i = false) (hs : storeAddr i s = none)
      (hf : i.fatalOpcode = true) (ht : t = s.raiseDecode (encode i))

/-- The one inversion lemma of `exec`. -/
theorem exec_effect {i : Instr} {s t : State} (h : exec i s = .next t) : Effect i s t := by
  cases i with
  | br nzp off9 =>
    obtain rfl := Host.Outcome.next.inj h
    exact .goto _ rfl rfl rfl rfl (State.branch_eq ..)
  | addReg dr sr1 u sr2 => obtain rfl := Host.Outcome.next.inj h; exact .result dr s _ rfl rfl rfl rfl .none rfl
  | addImm dr sr1 imm5 => obtain rfl := Host.Outcome.next.inj h; exact .result dr s _ rfl rfl rfl rfl .none rfl
  | ld dr off9 => obtain rfl := Host.Outcome.next.inj h; exact .result dr _ _ rfl rfl rfl rfl (.one _) rfl
  | st sr off9 => obtain rfl := Host.Outcome.next.inj h; exact .store _ _ s rfl rfl rfl rfl .none rfl
  | jsr off11 => obtain rfl := Host.Outcome.next.inj h; exact .call _ rfl rfl rfl rfl rfl
  | jsrr uHi baseR uLo => obtain rfl := Host.Outcome.next.inj h; exact .call _ rfl rfl rfl rfl rfl
  | andReg dr sr1 u sr2 => obtain rfl := Host.Outcome.next.inj h; exact .result dr s _ rfl rfl rfl rfl .none rfl
  | andImm dr sr1 imm5 => obtain rfl := Host.Outcome.next.inj h; exact .result dr s _ rfl rfl rfl rfl .none rfl
  | ldr dr baseR off6 => obtain rfl := Host.Outcome.next.inj h; exact .result dr _ _ rfl rfl rfl rfl (.one _) rfl
  | str sr baseR off6 => obtain rfl := Host.Outcome.next.inj h; exact .store _ _ s rfl rfl rfl rfl .none rfl
  | rti u => obtain rfl := Host.Outcome.next.inj h; exact .fatal rfl rfl rfl rfl rfl rfl
  | not dr sr u => obtain rfl := Host.Outcome.next.inj h; exact .result dr s _ rfl rfl rfl rfl .none rfl
  | ldi dr off9 => obtain rfl := Host.Outcome.next.inj h; exact .result dr _ _ rfl rfl rfl rfl (.two _) rfl
  | sti sr off9 => obtain rfl := Host.Outcome.next.inj h; exact .store _ _ _ rfl rfl rfl rfl (.one _) rfl
  | jmp uHi baseR uLo => obtain rfl := Host.Outcome.next.inj h; exact .goto _ rfl rfl rfl rfl rfl
  | res x => obtain rfl := Host.Outcome.next.inj h; exact .fatal rfl rfl rfl rfl rfl rfl
  | lea dr off9 => obtain rfl := Host.Outcome.next.inj h; exact .result dr s _ rfl rfl rfl rfl .none rfl
  | trap u v =>
    cases hp : serviceOf v with
    | some p =>
      simp only [exec, execTrap, hp] at h
      exact .service v p rfl rfl rfl rfl hp (Host.Outcome.next.inj h).symm
    | none =>
      simp only [exec, execTrap, hp] at h
      exact .badVector u v rfl hp (Host.Outcome.next.inj h).symm
  | ret => obtain rfl := Host.Outcome.next.inj h; exact .goto _ rfl rfl rfl rfl rfl
  | nop =>
    obtain rfl := Host.Outcome.next.inj h
    exact .goto _ rfl rfl rfl rfl (State.branch_eq ..)
  | getc => obtain rfl := Host.Outcome.next.inj h; exact .service _ .getc rfl rfl rfl rfl rfl rfl
  | out => obtain rfl := Host.Outcome.next.inj h; exact .service _ .out rfl rfl rfl rfl rfl rfl
  | puts => obtain rfl := Host.Outcome.next.inj h; exact .service _ .puts rfl rfl rfl rfl rfl rfl
  | inEcho => obtain rfl := Host.Outcome.next.inj h; exact .service _ .inEcho rfl rfl rfl rfl rfl rfl
  | putsp => obtain rfl := Host.Outcome.next.inj h; exact .service _ .putsp rfl rfl rfl rfl rfl rfl
  | halt => obtain rfl := Host.Outcome.next.inj h; exact .service _ .halt rfl rfl rfl rfl rfl rfl

/-- Every instruction has a next state in every state: no meaning stops (20_memory.md R73; 60_exceptions.md R254). -/
theorem exec_total (i : Instr) (s : State) : ∃ t, exec i s = .next t := by
  cases i with
  | trap u v =>
    cases hp : serviceOf v with
    | some p => exact ⟨s.link.serve p, by simp only [exec, execTrap, hp]⟩
    | none => exact ⟨s.link.raiseTrap (encode (.trap u v)) v, by simp only [exec, execTrap, hp]⟩
  | _ => exact ⟨_, rfl⟩

/-- The services that write no register but R7 and no flag: all but GETC and IN (43_trap.md R212). -/
theorem State.serve_quiet (s : State) {p : Service} (h1 : p ≠ .getc) (h2 : p ≠ .inEcho) :
    (s.link.serve p).regs = s.link.regs ∧ (s.link.serve p).cond = s.cond ∧ (s.link.serve p).consoleIn = s.consoleIn := by
  cases p with
  | getc => exact (h1 rfl).elim
  | inEcho => exact (h2 rfl).elim
  | out => exact ⟨rfl, rfl, rfl⟩
  | halt => exact ⟨rfl, rfl, rfl⟩
  | puts =>
    obtain ⟨-, -, h3, h4, h5⟩ := s.link.writeString_frame putsBytes .puts
    exact ⟨h4, h5, h3⟩
  | putsp =>
    obtain ⟨-, -, h3, h4, h5⟩ := s.link.writeString_frame putspBytes .putsp
    exact ⟨h4, h5, h3⟩

/-- Only the words of GETC and IN read a character. -/
theorem serviceOf_getc {v : BitVec 8} (h : serviceOf v = some .getc) : v = 0x20#8 := by
  revert h; revert v; decide

theorem serviceOf_inEcho {v : BitVec 8} (h : serviceOf v = some .inEcho) : v = 0x23#8 := by
  revert h; revert v; decide

theorem serviceOf_halt {v : BitVec 8} (h : serviceOf v = some .halt) : v = 0x25#8 := by
  revert h; revert v; decide

end Sys2Proof.Machine
end

