-- ==== Sys2Proof/Laws/PerInstr.lean ====
section
/-! SUPPORT. The per-instruction family EncodesRow: the word of an instruction lies in its row of spec/opcode_table.json. -/

namespace Sys2Proof.Laws

/-- The row's `mask`. -/
def EncodesRow.rowMask : Instr → Word
  | .br _ _ => 0xF000#16
  | .addReg _ _ _ _ => 0xF020#16
  | .addImm _ _ _ => 0xF020#16
  | .ld _ _ => 0xF000#16
  | .st _ _ => 0xF000#16
  | .jsr _ => 0xF800#16
  | .jsrr _ _ _ => 0xF800#16
  | .andReg _ _ _ _ => 0xF020#16
  | .andImm _ _ _ => 0xF020#16
  | .ldr _ _ _ => 0xF000#16
  | .str _ _ _ => 0xF000#16
  | .rti _ => 0xF000#16
  | .not _ _ _ => 0xF000#16
  | .ldi _ _ => 0xF000#16
  | .sti _ _ => 0xF000#16
  | .jmp _ _ _ => 0xF000#16
  | .res _ => 0xF000#16
  | .lea _ _ => 0xF000#16
  | .trap _ _ => 0xF000#16
  | .ret => 0xFFFF#16
  | .nop => 0xFFFF#16
  | .getc => 0xFFFF#16
  | .out => 0xFFFF#16
  | .puts => 0xFFFF#16
  | .inEcho => 0xFFFF#16
  | .putsp => 0xFFFF#16
  | .halt => 0xFFFF#16

/-- The row's `match`. -/
def EncodesRow.rowMatch : Instr → Word
  | .br _ _ => 0x0000#16
  | .addReg _ _ _ _ => 0x1000#16
  | .addImm _ _ _ => 0x1020#16
  | .ld _ _ => 0x2000#16
  | .st _ _ => 0x3000#16
  | .jsr _ => 0x4800#16
  | .jsrr _ _ _ => 0x4000#16
  | .andReg _ _ _ _ => 0x5000#16
  | .andImm _ _ _ => 0x5020#16
  | .ldr _ _ _ => 0x6000#16
  | .str _ _ _ => 0x7000#16
  | .rti _ => 0x8000#16
  | .not _ _ _ => 0x9000#16
  | .ldi _ _ => 0xA000#16
  | .sti _ _ => 0xB000#16
  | .jmp _ _ _ => 0xC000#16
  | .res _ => 0xD000#16
  | .lea _ _ => 0xE000#16
  | .trap _ _ => 0xF000#16
  | .ret => 0xC1C0#16
  | .nop => 0x0000#16
  | .getc => 0xF020#16
  | .out => 0xF021#16
  | .puts => 0xF022#16
  | .inEcho => 0xF023#16
  | .putsp => 0xF024#16
  | .halt => 0xF025#16

/-- The word of the instruction, under its row's mask, is its row's match (spec/opcode_table.json; 30_encoding.md R102). -/
def EncodesRow.Statement (i : Instr) : Prop := encode i &&& EncodesRow.rowMask i = EncodesRow.rowMatch i

/-- Two words with the same sixteen bits are equal. -/
theorem EncodesRow.of_bits {v w : Word} (h : ∀ k, k < 16 → v.getLsbD k = w.getLsbD k) : v = w :=
  BitVec.eq_of_getLsbD_eq h

theorem EncodesRow.br (nzp : BitVec 3) (off9 : BitVec 9) : EncodesRow.Statement (.br nzp off9) := by
  refine EncodesRow.of_bits fun k hk => ?_
  simp only [encode, EncodesRow.rowMask, EncodesRow.rowMatch, BitVec.getLsbD_and, BitVec.getLsbD_append]
  interval_cases k <;> simp

theorem EncodesRow.addReg (dr sr1 : Reg) (u : BitVec 2) (sr2 : Reg) : EncodesRow.Statement (.addReg dr sr1 u sr2) := by
  refine EncodesRow.of_bits fun k hk => ?_
  simp only [encode, EncodesRow.rowMask, EncodesRow.rowMatch, BitVec.getLsbD_and, BitVec.getLsbD_append]
  interval_cases k <;> simp

theorem EncodesRow.addImm (dr sr1 : Reg) (imm5 : BitVec 5) : EncodesRow.Statement (.addImm dr sr1 imm5) := by
  refine EncodesRow.of_bits fun k hk => ?_
  simp only [encode, EncodesRow.rowMask, EncodesRow.rowMatch, BitVec.getLsbD_and, BitVec.getLsbD_append]
  interval_cases k <;> simp

theorem EncodesRow.ld (dr : Reg) (off9 : BitVec 9) : EncodesRow.Statement (.ld dr off9) := by
  refine EncodesRow.of_bits fun k hk => ?_
  simp only [encode, EncodesRow.rowMask, EncodesRow.rowMatch, BitVec.getLsbD_and, BitVec.getLsbD_append]
  interval_cases k <;> simp

theorem EncodesRow.st (sr : Reg) (off9 : BitVec 9) : EncodesRow.Statement (.st sr off9) := by
  refine EncodesRow.of_bits fun k hk => ?_
  simp only [encode, EncodesRow.rowMask, EncodesRow.rowMatch, BitVec.getLsbD_and, BitVec.getLsbD_append]
  interval_cases k <;> simp

theorem EncodesRow.jsr (off11 : BitVec 11) : EncodesRow.Statement (.jsr off11) := by
  refine EncodesRow.of_bits fun k hk => ?_
  simp only [encode, EncodesRow.rowMask, EncodesRow.rowMatch, BitVec.getLsbD_and, BitVec.getLsbD_append]
  interval_cases k <;> simp

theorem EncodesRow.jsrr (uHi : BitVec 2) (baseR : Reg) (uLo : BitVec 6) : EncodesRow.Statement (.jsrr uHi baseR uLo) := by
  refine EncodesRow.of_bits fun k hk => ?_
  simp only [encode, EncodesRow.rowMask, EncodesRow.rowMatch, BitVec.getLsbD_and, BitVec.getLsbD_append]
  interval_cases k <;> simp

theorem EncodesRow.andReg (dr sr1 : Reg) (u : BitVec 2) (sr2 : Reg) : EncodesRow.Statement (.andReg dr sr1 u sr2) := by
  refine EncodesRow.of_bits fun k hk => ?_
  simp only [encode, EncodesRow.rowMask, EncodesRow.rowMatch, BitVec.getLsbD_and, BitVec.getLsbD_append]
  interval_cases k <;> simp

theorem EncodesRow.andImm (dr sr1 : Reg) (imm5 : BitVec 5) : EncodesRow.Statement (.andImm dr sr1 imm5) := by
  refine EncodesRow.of_bits fun k hk => ?_
  simp only [encode, EncodesRow.rowMask, EncodesRow.rowMatch, BitVec.getLsbD_and, BitVec.getLsbD_append]
  interval_cases k <;> simp

theorem EncodesRow.ldr (dr baseR : Reg) (off6 : BitVec 6) : EncodesRow.Statement (.ldr dr baseR off6) := by
  refine EncodesRow.of_bits fun k hk => ?_
  simp only [encode, EncodesRow.rowMask, EncodesRow.rowMatch, BitVec.getLsbD_and, BitVec.getLsbD_append]
  interval_cases k <;> simp

theorem EncodesRow.str (sr baseR : Reg) (off6 : BitVec 6) : EncodesRow.Statement (.str sr baseR off6) := by
  refine EncodesRow.of_bits fun k hk => ?_
  simp only [encode, EncodesRow.rowMask, EncodesRow.rowMatch, BitVec.getLsbD_and, BitVec.getLsbD_append]
  interval_cases k <;> simp

theorem EncodesRow.rti (u : BitVec 12) : EncodesRow.Statement (.rti u) := by
  refine EncodesRow.of_bits fun k hk => ?_
  simp only [encode, EncodesRow.rowMask, EncodesRow.rowMatch, BitVec.getLsbD_and, BitVec.getLsbD_append]
  interval_cases k <;> simp

theorem EncodesRow.not (dr sr : Reg) (u : BitVec 6) : EncodesRow.Statement (.not dr sr u) := by
  refine EncodesRow.of_bits fun k hk => ?_
  simp only [encode, EncodesRow.rowMask, EncodesRow.rowMatch, BitVec.getLsbD_and, BitVec.getLsbD_append]
  interval_cases k <;> simp

theorem EncodesRow.ldi (dr : Reg) (off9 : BitVec 9) : EncodesRow.Statement (.ldi dr off9) := by
  refine EncodesRow.of_bits fun k hk => ?_
  simp only [encode, EncodesRow.rowMask, EncodesRow.rowMatch, BitVec.getLsbD_and, BitVec.getLsbD_append]
  interval_cases k <;> simp

theorem EncodesRow.sti (sr : Reg) (off9 : BitVec 9) : EncodesRow.Statement (.sti sr off9) := by
  refine EncodesRow.of_bits fun k hk => ?_
  simp only [encode, EncodesRow.rowMask, EncodesRow.rowMatch, BitVec.getLsbD_and, BitVec.getLsbD_append]
  interval_cases k <;> simp

theorem EncodesRow.jmp (uHi : BitVec 3) (baseR : Reg) (uLo : BitVec 6) : EncodesRow.Statement (.jmp uHi baseR uLo) := by
  refine EncodesRow.of_bits fun k hk => ?_
  simp only [encode, EncodesRow.rowMask, EncodesRow.rowMatch, BitVec.getLsbD_and, BitVec.getLsbD_append]
  interval_cases k <;> simp

theorem EncodesRow.res (x : BitVec 12) : EncodesRow.Statement (.res x) := by
  refine EncodesRow.of_bits fun k hk => ?_
  simp only [encode, EncodesRow.rowMask, EncodesRow.rowMatch, BitVec.getLsbD_and, BitVec.getLsbD_append]
  interval_cases k <;> simp

theorem EncodesRow.lea (dr : Reg) (off9 : BitVec 9) : EncodesRow.Statement (.lea dr off9) := by
  refine EncodesRow.of_bits fun k hk => ?_
  simp only [encode, EncodesRow.rowMask, EncodesRow.rowMatch, BitVec.getLsbD_and, BitVec.getLsbD_append]
  interval_cases k <;> simp

theorem EncodesRow.trap (u : BitVec 4) (vect8 : BitVec 8) : EncodesRow.Statement (.trap u vect8) := by
  refine EncodesRow.of_bits fun k hk => ?_
  simp only [encode, EncodesRow.rowMask, EncodesRow.rowMatch, BitVec.getLsbD_and, BitVec.getLsbD_append]
  interval_cases k <;> simp

theorem EncodesRow.ret : EncodesRow.Statement .ret := by unfold EncodesRow.Statement; decide

theorem EncodesRow.nop : EncodesRow.Statement .nop := by unfold EncodesRow.Statement; decide

theorem EncodesRow.getc : EncodesRow.Statement .getc := by unfold EncodesRow.Statement; decide

theorem EncodesRow.out : EncodesRow.Statement .out := by unfold EncodesRow.Statement; decide

theorem EncodesRow.puts : EncodesRow.Statement .puts := by unfold EncodesRow.Statement; decide

theorem EncodesRow.inEcho : EncodesRow.Statement .inEcho := by unfold EncodesRow.Statement; decide

theorem EncodesRow.putsp : EncodesRow.Statement .putsp := by unfold EncodesRow.Statement; decide

theorem EncodesRow.halt : EncodesRow.Statement .halt := by unfold EncodesRow.Statement; decide

end Sys2Proof.Laws
end

