-- ==== Sys2Proof/Tests/Slice0.lean ====
section
/-! SUPPORT. Tests: ill-formed terms refused, words written out from 30_encoding.md, single steps with the values of
95_test_vectors.md ("V<n> row <m>"), and for every statement with hypotheses a state and operands that meet them. -/

namespace Sys2Proof.Tests

open Sys2Proof.Machine

/-! Ill-formed instructions: the words of the alias rows have one name only. -/

theorem test_wf_refuses_nop_as_br : Instr.wellFormed (.br 0b000#3 0#9) = false := by decide
theorem test_wf_refuses_ret_as_jmp : Instr.wellFormed (.jmp 0b000#3 7 0#6) = false := by decide
theorem test_wf_refuses_getc_as_trap : Instr.wellFormed (.trap 0#4 0x20#8) = false := by decide
theorem test_wf_refuses_out_as_trap : Instr.wellFormed (.trap 0#4 0x21#8) = false := by decide
theorem test_wf_refuses_puts_as_trap : Instr.wellFormed (.trap 0#4 0x22#8) = false := by decide
theorem test_wf_refuses_in_as_trap : Instr.wellFormed (.trap 0#4 0x23#8) = false := by decide
theorem test_wf_refuses_putsp_as_trap : Instr.wellFormed (.trap 0#4 0x24#8) = false := by decide
theorem test_wf_refuses_halt_as_trap : Instr.wellFormed (.trap 0#4 0x25#8) = false := by decide

/-! Decoding, a word per constructor, written bit by bit from the formats of 30_encoding.md R102. -/

/-- `0000 nzp fffffffff`: n and p set, offset -2. -/
theorem test_decode_br : decode 0b0000101111111110#16 = .br 0b101#3 0b111111110#9 := by decide
/-- `0001 ddd sss 0 uu ttt`: DR 5, SR1 3, SR2 6. -/
theorem test_decode_addReg : decode 0b0001101011000110#16 = .addReg 5 3 0b00#2 6 := by decide
/-- `0001 ddd sss 1 iiiii`: DR 5, SR1 3, -10. -/
theorem test_decode_addImm : decode 0b0001101011110110#16 = .addImm 5 3 0b10110#5 := by decide
/-- `0010 ddd fffffffff`. -/
theorem test_decode_ld : decode 0b0010110100000001#16 = .ld 6 0b100000001#9 := by decide
/-- `0011 sss fffffffff`. -/
theorem test_decode_st : decode 0b0011001011111110#16 = .st 1 0b011111110#9 := by decide
/-- `0100 1 fffffffffff`. -/
theorem test_decode_jsr : decode 0b0100110000000001#16 = .jsr 0b10000000001#11 := by decide
/-- `0100 0 uu bbb uuuuuu`. -/
theorem test_decode_jsrr : decode 0b0100010101000001#16 = .jsrr 0b10#2 5 0b000001#6 := by decide
/-- `0101 ddd sss 0 uu ttt`, with the unused bits 10. -/
theorem test_decode_andReg : decode 0b0101011100010001#16 = .andReg 3 4 0b10#2 1 := by decide
/-- `0101 ddd sss 1 iiiii`. -/
theorem test_decode_andImm : decode 0b0101011100101111#16 = .andImm 3 4 0b01111#5 := by decide
/-- `0110 ddd bbb ffffff`. -/
theorem test_decode_ldr : decode 0b0110001110100001#16 = .ldr 1 6 0b100001#6 := by decide
/-- `0111 sss bbb ffffff`. -/
theorem test_decode_str : decode 0b0111110001011110#16 = .str 6 1 0b011110#6 := by decide
/-- `1000 uuuuuuuuuuuu`. -/
theorem test_decode_rti : decode 0b1000100000000001#16 = .rti 0b100000000001#12 := by decide
/-- `1001 ddd sss 111111`. -/
theorem test_decode_not : decode 0b1001010101111111#16 = .not 2 5 0b111111#6 := by decide
/-- `1010 ddd fffffffff`. -/
theorem test_decode_ldi : decode 0b1010100000000011#16 = .ldi 4 0b000000011#9 := by decide
/-- `1011 sss fffffffff`. -/
theorem test_decode_sti : decode 0b1011011100000000#16 = .sti 3 0b100000000#9 := by decide
/-- `1100 uuu bbb uuuuuu`. -/
theorem test_decode_jmp : decode 0b1100000011000000#16 = .jmp 0b000#3 3 0b000000#6 := by decide
/-- `1101 xxxxxxxxxxxx`. -/
theorem test_decode_res : decode 0b1101000000000010#16 = .res 0b000000000010#12 := by decide
/-- `1110 ddd fffffffff`. -/
theorem test_decode_lea : decode 0b1110111000000100#16 = .lea 7 0b000000100#9 := by decide
/-- `1111 uuuu vvvvvvvv`: an unused bit set, so not HALT's own word. -/
theorem test_decode_trap : decode 0b1111000100100101#16 = .trap 0b0001#4 0x25#8 := by decide
theorem test_decode_ret : decode 0b1100000111000000#16 = .ret := by decide
theorem test_decode_nop : decode 0b0000000000000000#16 = .nop := by decide
theorem test_decode_getc : decode 0b1111000000100000#16 = .getc := by decide
theorem test_decode_out : decode 0b1111000000100001#16 = .out := by decide
theorem test_decode_puts : decode 0b1111000000100010#16 = .puts := by decide
theorem test_decode_in : decode 0b1111000000100011#16 = .inEcho := by decide
theorem test_decode_putsp : decode 0b1111000000100100#16 = .putsp := by decide
theorem test_decode_halt : decode 0b1111000000100101#16 = .halt := by decide

/-- BR with an empty mask and an offset is not the word NOP names, and stays a BR (30_encoding.md R117). -/
theorem test_decode_never_branch : decode 0x0005#16 = .br 0b000#3 5#9 := by decide

/-- The host's view of the decoder, and an instruction longer than a word refused. -/
theorem test_decodeTableWord : decodeTableWord 16 0x1025 = some (.addImm 0 0 5#5) ∧ decodeTableWord 32 0x1025 = none := by
  decide

/-! Single steps. -/

/-- The reset state with the defaults 95_test_vectors.md assumes: HALT_TEXT and PROMPT_TEXT empty. -/
def ready : State := { State.reset with params := ⟨.ignore, [], []⟩ }

/-- The same under UNUSED_BITS_POLICY = `fatal`. -/
def strict : State := { State.reset with params := ⟨.fatal, [], []⟩ }

/-- `step` answers a next state, and it meets `f`. -/
def stepTo (s : State) (f : State → Bool) : Bool :=
  match step s with
  | .next t => f t
  | .fault _ => false
  | .refused _ => false

/-- With a byte waiting. -/
def withKey (s : State) (b : Byte) : State := { s with consoleIn := [b] }

/-- V3 row 1. -/
theorem test_addReg : stepTo (((ready.setReg 0 3#16).setReg 1 4#16).withFetchWord 16 0x1401)
    (fun t => t.getReg 2 == 7#16 && t.cond == .p && t.pc == 0x3001#16) = true := by decide

/-- V3 row 6: the source is the destination, and the sum wraps. -/
theorem test_addReg_wraps : stepTo ((ready.setReg 0 0x8000#16).withFetchWord 16 0x1000)
    (fun t => t.getReg 0 == 0x0000#16 && t.cond == .z) = true := by decide

/-- V3 row 4: a signed overflow raises nothing. -/
theorem test_addImm_overflow : stepTo ((ready.setReg 1 0x7FFF#16).withFetchWord 16 0x1061)
    (fun t => t.getReg 0 == 0x8000#16 && t.cond == .n) = true := by decide

/-- V3 row 3: the immediate is sign-extended. -/
theorem test_addImm_negative : stepTo (ready.withFetchWord 16 0x1070)
    (fun t => t.getReg 0 == 0xFFF0#16 && t.cond == .n) = true := by decide

/-- V3 row 8. -/
theorem test_andReg : stepTo (((ready.setReg 1 0x0F0F#16).setReg 2 0x00FF#16).withFetchWord 16 0x5642)
    (fun t => t.getReg 3 == 0x000F#16 && t.cond == .p) = true := by decide

/-- V3 row 10: the immediate is sign-extended before the AND. -/
theorem test_andImm_minus_one : stepTo ((ready.setReg 1 0x8001#16).withFetchWord 16 0x507F)
    (fun t => t.getReg 0 == 0x8001#16 && t.cond == .n) = true := by decide

/-- V3 row 12. -/
theorem test_not : stepTo ((ready.setReg 0 0x00FF#16).withFetchWord 16 0x923F)
    (fun t => t.getReg 1 == 0xFF00#16 && t.cond == .n) = true := by decide

/-- V3 row 15: unused bits are ignored under `ignore`. -/
theorem test_unused_bits_ignored : stepTo (((ready.setReg 0 7#16).setReg 1 1#16).withFetchWord 16 0x1058)
    (fun t => t.getReg 0 == 8#16 && t.cond == .p) = true := by decide

/-- V3 row 16: and are fatal under `fatal`. -/
theorem test_unused_bits_fatal : stepTo (((strict.setReg 0 7#16).setReg 1 1#16).withFetchWord 16 0x1058)
    (fun t => t.run == .faultDecode && t.fault == some ⟨.decode, 0x1058#16, 0x3000#16, 0#8⟩ && t.getReg 0 == 7#16
      && t.pc == 0x3001#16) = true := by decide

/-- V3 row 18. -/
theorem test_not_unused_bits_fatal : stepTo (strict.withFetchWord 16 0x9000)
    (fun t => t.run == .faultDecode && t.fault == some ⟨.decode, 0x9000#16, 0x3000#16, 0#8⟩) = true := by decide

/-- V4 row 8: the target wraps, from the last word of memory. -/
theorem test_br_wraps : stepTo (((ready.setPc 0xFFFF#16).setCond .p).withFetchWord 16 0x0201)
    (fun t => t.pc == 0x0001#16) = true := by decide

/-- V4 row 2: not taken. -/
theorem test_br_not_taken : stepTo ((ready.setCond .p).withFetchWord 16 0x0402) (fun t => t.pc == 0x3001#16) = true := by
  decide

/-- V4 row 6. -/
theorem test_nop : stepTo ((ready.setCond .n).withFetchWord 16 0x0000)
    (fun t => t.pc == 0x3001#16 && t.cond == .n) = true := by decide

/-- V5 row 1. -/
theorem test_jmp : stepTo ((ready.setReg 2 0x4000#16).withFetchWord 16 0xC080) (fun t => t.pc == 0x4000#16) = true := by
  decide

/-- V5 row 2. -/
theorem test_ret : stepTo ((ready.setReg 7 0x3010#16).withFetchWord 16 0xC1C0) (fun t => t.pc == 0x3010#16) = true := by
  decide

/-- V5 row 4: the smallest offset. -/
theorem test_jsr : stepTo (ready.withFetchWord 16 0x4C00)
    (fun t => t.getReg 7 == 0x3001#16 && t.pc == 0x2C01#16) = true := by decide

/-- V5 row 7: R7 is written before it is read. -/
theorem test_jsrr_r7 : stepTo ((ready.setReg 7 0x5000#16).withFetchWord 16 0x41C0)
    (fun t => t.getReg 7 == 0x3001#16 && t.pc == 0x3001#16) = true := by decide

/-- V5 row 6. -/
theorem test_jsrr : stepTo ((ready.setReg 2 0x5000#16).withFetchWord 16 0x4080)
    (fun t => t.getReg 7 == 0x3001#16 && t.pc == 0x5000#16) = true := by decide

/-- V6 row 1. -/
theorem test_ld : stepTo ((ready.busWrite 0x3003#16 0x8001#16).withFetchWord 16 0x2202)
    (fun t => t.getReg 1 == 0x8001#16 && t.cond == .n) = true := by decide

/-- V6 row 3. -/
theorem test_ldi : stepTo (((ready.busWrite 0x3002#16 0x4000#16).busWrite 0x4000#16 0x0042#16).withFetchWord 16 0xA401)
    (fun t => t.getReg 2 == 0x0042#16 && t.cond == .p) = true := by decide

/-- V6 row 5: the data read at KBSR polls. -/
theorem test_ldi_polls : stepTo (withKey ((ready.busWrite 0x3002#16 0xFE00#16).withFetchWord 16 0xA401) 0x78#8)
    (fun t => t.getReg 2 == 0x8000#16 && t.cond == .n && t.rawRead 0xFE02#16 == 0x0078#16 && t.consoleIn == []) = true := by
  decide

/-- V6 row 8: the address wraps; the base register is the destination. -/
theorem test_ldr_wraps : stepTo (((ready.setReg 1 0xFFFF#16).busWrite 0x0000#16 0x0005#16).withFetchWord 16 0x6241)
    (fun t => t.getReg 1 == 0x0005#16 && t.cond == .p) = true := by decide

/-- V6 row 9: the smallest offset. -/
theorem test_ldr_negative : stepTo (((ready.setReg 1 0x4020#16).busWrite 0x4000#16 0xABCD#16).withFetchWord 16 0x6060)
    (fun t => t.getReg 0 == 0xABCD#16 && t.cond == .n) = true := by decide

/-- V6 row 12: LEA at the last word of memory, and it sets the flags. -/
theorem test_lea_wraps : stepTo (((ready.setPc 0xFFFF#16).setCond .n).withFetchWord 16 0xE000)
    (fun t => t.getReg 0 == 0x0000#16 && t.cond == .z && t.pc == 0x0000#16) = true := by decide

/-- 42_load_store.md R190's example. V7 row 1 gives the same word beside `ST R1, #5` (log 23). -/
theorem test_st : stepTo ((ready.setReg 0 0x1234#16).withFetchWord 16 0x3005)
    (fun t => t.rawRead 0x3006#16 == 0x1234#16 && t.cond == .z) = true := by decide

/-- The word of `ST R1, #0` in program P6. -/
theorem test_decode_st_r1 : decode 0x3200#16 = .st 1 0#9 := by decide

/-- V7 row 3: the pointer read is not at KBSR, so nothing polls. -/
theorem test_sti_kbsr :
    stepTo (withKey (((ready.setReg 1 0x1234#16).busWrite 0x3002#16 0xFE00#16).withFetchWord 16 0xB201) 0x6B#8)
      (fun t => t.rawRead 0xFE00#16 == 0x1234#16 && t.consoleIn == [0x6B#8]) = true := by decide

/-- V7 row 4. -/
theorem test_str : stepTo (((ready.setReg 2 0x00AA#16).setReg 5 0x6000#16).withFetchWord 16 0x7543)
    (fun t => t.rawRead 0x6003#16 == 0x00AA#16) = true := by decide

/-- V8 row 3: the byte is zero-extended. -/
theorem test_getc : stepTo (withKey (ready.withFetchWord 16 0xF020) 0xE9#8)
    (fun t => t.getReg 0 == 0x00E9#16 && t.cond == .p && t.getReg 7 == 0x3001#16) = true := by decide

/-- V8 row 4: held. -/
theorem test_getc_held : stepTo ((ready.setReg 0 5#16).withFetchWord 16 0xF020)
    (fun t => t.pending == some .getc && t.getReg 0 == 5#16 && t.getReg 7 == 0x3001#16 && t.pc == 0x3001#16) = true := by
  decide

/-- V8 row 5. -/
theorem test_out : stepTo ((ready.setReg 0 0x1241#16).withFetchWord 16 0xF021)
    (fun t => t.consoleOut == [0x41#8] && t.getReg 0 == 0x1241#16) = true := by decide

/-- V8 row 9: the walk wraps. -/
theorem test_puts_wraps :
    stepTo ((((ready.setReg 0 0xFFFF#16).busWrite 0xFFFF#16 0x0041#16).busWrite 0x0000#16 0x0042#16).withFetchWord 16 0xF022)
      (fun t => t.consoleOut == [0x41#8, 0x42#8] && t.pending == none) = true := by decide

/-- V8 row 8: the low byte only. -/
theorem test_puts_low_byte : stepTo (((ready.setReg 0 0x4000#16).busWrite 0x4000#16 0x4142#16).withFetchWord 16 0xF022)
    (fun t => t.consoleOut == [0x42#8]) = true := by decide

/-- V8 row 11: the prompt is written before the echo. -/
theorem test_in_prompt :
    stepTo (withKey ({ ready with params := ⟨.ignore, [0x3E#8, 0x20#8], []⟩ }.withFetchWord 16 0xF023) 0x7A#8)
      (fun t => t.consoleOut == [0x3E#8, 0x20#8, 0x7A#8] && t.getReg 0 == 0x007A#16 && t.cond == .p) = true := by decide

/-- V8 row 12. -/
theorem test_putsp :
    stepTo ((((ready.setReg 0 0x4000#16).busWrite 0x4000#16 0x6548#16).busWrite 0x4001#16 0x006C#16).withFetchWord 16 0xF024)
      (fun t => t.consoleOut == [0x48#8, 0x65#8, 0x6C#8]) = true := by decide

/-- V8 row 13: a zero low byte is written. -/
theorem test_putsp_low_zero : stepTo (((ready.setReg 0 0x4000#16).busWrite 0x4000#16 0x4100#16).withFetchWord 16 0xF024)
    (fun t => t.consoleOut == [0x00#8, 0x41#8]) = true := by decide

/-- V8 row 14. -/
theorem test_halt : stepTo ((ready.setCond .n).withFetchWord 16 0xF025)
    (fun t => t.run == .halted && t.cond == .n && t.getReg 7 == 0x3001#16) = true := by decide

/-- V8 row 17: the last vector below the services. -/
theorem test_trap_unknown : stepTo (ready.withFetchWord 16 0xF01F)
    (fun t => t.run == .faultTrap && t.fault == some ⟨.trap, 0xF01F#16, 0x3000#16, 0x1F#8⟩ && t.getReg 7 == 0x3001#16)
      = true := by decide

/-- V8 row 20: an unused bit of TRAP under `fatal` is found before R7 is written. -/
theorem test_trap_unused_bits : stepTo (strict.withFetchWord 16 0xF125)
    (fun t => t.run == .faultDecode && t.fault == some ⟨.decode, 0xF125#16, 0x3000#16, 0x00#8⟩ && t.getReg 7 == 0#16)
      = true := by decide

/-- V9 row 1. -/
theorem test_rti : stepTo (ready.withFetchWord 16 0x8000)
    (fun t => t.run == .faultDecode && t.fault == some ⟨.decode, 0x8000#16, 0x3000#16, 0x00#8⟩ && t.pc == 0x3001#16)
      = true := by decide

/-- V9 row 2. -/
theorem test_res : stepTo ((ready.setCond .p).withFetchWord 16 0xD123)
    (fun t => t.run == .faultDecode && t.fault == some ⟨.decode, 0xD123#16, 0x3000#16, 0x00#8⟩ && t.cond == .p)
      = true := by decide

/-- V10 row 2: a fetch at KBSR polls, and executes RTI. -/
theorem test_fetch_at_kbsr : stepTo (withKey (ready.setPc 0xFE00#16) 0x21#8)
    (fun t => t.fault == some ⟨.decode, 0x8000#16, 0xFE00#16, 0x00#8⟩ && t.rawRead 0xFE02#16 == 0x0021#16
      && t.pc == 0xFE01#16) = true := by decide

/-- Part 1, S1: the image's bytes `30 00 50 20 10 25 F0 25` placed at 0x3000. -/
theorem test_launch : (match State.launch [[0x30#8, 0x00#8, 0x50#8, 0x20#8, 0x10#8, 0x25#8, 0xF0#8, 0x25#8]] with
    | some s => s.rawRead 0x3000#16 == 0x5020#16 && s.rawRead 0x3002#16 == 0xF025#16 && s.rawRead 0x3003#16 == 0x0000#16
    | none => false) = true := by decide

/-! Witnesses: a state and operands that meet the hypotheses of each statement that has some, a clause at a time. -/

theorem witness_DecodeOfEncodeIsIdentity : Instr.wellFormed (.trap 0x1#4 0x25#8) = true ∧ Instr.wellFormed (.br 0b000#3 1#9) = true
    ∧ Instr.wellFormed (.jmp 0b001#3 7 0#6) = true ∧ Instr.wellFormed .halt = true := by decide

theorem witness_StepRunsTheDecodedInstruction :
    (ready.withFetchWord 16 0x1058).run = .running ∧ (ready.withFetchWord 16 0x1058).pending = none
      ∧ decodeUnder .ignore (ready.withFetchWord 16 0x1058).fetch.1 = .ok (.addReg 0 1 0b11#2 0)
      ∧ (ready.withFetchWord 16 0x1058).params.unusedBits = .ignore
      ∧ decodeUnder .fatal (strict.withFetchWord 16 0xF025).fetch.1 = .ok .halt
      ∧ (strict.withFetchWord 16 0xF025).params.unusedBits = .fatal := by
  refine ⟨rfl, rfl, rfl, rfl, rfl, rfl⟩

theorem witness_StepRejectsNonCanonicalWord :
    (strict.withFetchWord 16 0x9000).run = .running ∧ (strict.withFetchWord 16 0x9000).pending = none
      ∧ (strict.withFetchWord 16 0x9000).params.unusedBits = .fatal
      ∧ unusedBitSet (strict.withFetchWord 16 0x9000).fetch.1 = true := by decide

/-- The clauses at KBSR and away from it, on both sides of it and at both ends of memory. -/
theorem witness_FetchReadsAndAdvances :
    (ready.setPc 0xFDFF#16).pc ≠ 0xFE00#16 ∧ (ready.setPc 0xFE01#16).pc ≠ 0xFE00#16 ∧ (ready.setPc 0x0000#16).pc ≠ 0xFE00#16
      ∧ (ready.setPc 0xFFFF#16).pc ≠ 0xFE00#16 ∧ (ready.setPc 0xFE00#16).pc = 0xFE00#16 := by decide

theorem witness_StepAtKbsrPollsThenExecutes :
    (ready.setPc 0xFE00#16).run = .running ∧ (ready.setPc 0xFE00#16).pending = none ∧ (ready.setPc 0xFE00#16).pc = 0xFE00#16
      ∧ (ready.setPc 0xFE00#16).consoleIn = [] ∧ (withKey (ready.setPc 0xFE00#16) 0x21#8).run = .running
      ∧ (withKey (ready.setPc 0xFE00#16) 0x21#8).consoleIn = [0x21#8] := by decide

theorem witness_FinalStatesTakeNoStep :
    (ready.setRun .halted).run ≠ .running ∧ (ready.setRun .faultDecode).run ≠ .running
      ∧ (ready.setRun .faultTrap).run ≠ .running ∧ (ready.setRun .terminated).run ≠ .running := by decide

/-- Both clauses on the address, and both cases of the queue. -/
theorem witness_BusReadPollsOnlyAtKbsr :
    (0xFE02#16 : Word) ≠ 0xFE00#16 ∧ (0xFDFF#16 : Word) ≠ 0xFE00#16 ∧ ready.consoleIn = []
      ∧ (withKey ready 0x61#8).consoleIn = [0x61#8] := by decide

/-- A store of each form to the address in `pc`, and an instruction with an address to store to. -/
theorem witness_StoreIsSeenByTheNextFetch : ready.pc ≠ 0xFE00#16 ∧ storeAddr (.st 1 0#9) ready = some ready.pc
    ∧ (ready.busWrite 0x3001#16 0x3000#16).pc ≠ 0xFE00#16
    ∧ storeAddr (.sti 1 1#9) (ready.busWrite 0x3001#16 0x3000#16) = some (ready.busWrite 0x3001#16 0x3000#16).pc
    ∧ (ready.setReg 2 0x3020#16).pc ≠ 0xFE00#16
    ∧ storeAddr (.str 1 2 0b100000#6) (ready.setReg 2 0x3020#16) = some (ready.setReg 2 0x3020#16).pc
    ∧ storeAddr (.st 1 5#9) ready ≠ none := by decide

/-- Both ends of the range of widths. -/
theorem witness_SignExtensionCopiesTheSignBit :
    sext 1#1 = 0xFFFF#16 ∧ sext 0x8000#16 = 0x8000#16 ∧ (1 ≤ 1 ∧ 1 ≤ 16) ∧ (1 ≤ 16 ∧ 16 ≤ 16) := by decide

/-- At both ends of the range of service vectors, and at a TRAP with an unused bit. -/
theorem witness_ServicesChangeOnlyWhatTheyName :
    (trapVector .getc = some 0x20#8 ∧ 0x20 ≤ (0x20#8).toNat ∧ (0x20#8).toNat ≤ 0x25 ∧ ∃ t, exec .getc ready = .next t)
      ∧ (trapVector (.trap 1#4 0x25#8) = some 0x25#8 ∧ 0x20 ≤ (0x25#8).toNat ∧ (0x25#8).toNat ≤ 0x25
        ∧ ∃ t, exec (.trap 1#4 0x25#8) ready = .next t)
      ∧ (0x25#8 ≠ 0x20#8 ∧ 0x25#8 ≠ 0x23#8) :=
  ⟨⟨rfl, by decide, by decide, exec_total _ _⟩, ⟨rfl, by decide, by decide, exec_total _ _⟩, by decide, by decide⟩

/-- V8 row 9's memory: a string across the top of memory. -/
def wrapped : State := ((ready.setReg 0 0xFFFF#16).busWrite 0xFFFF#16 0x0041#16).busWrite 0x0000#16 0x6542#16

theorem wrapped_string : (∀ w ∈ [0x0041#16, 0x6542#16], w ≠ 0x0000#16) ∧ [0x0041#16, 0x6542#16].length < 65536
    ∧ (∀ k (h : k < [0x0041#16, 0x6542#16].length),
        wrapped.rawRead (wrapped.getReg 0 + BitVec.ofNat 16 k) = [0x0041#16, 0x6542#16][k])
    ∧ wrapped.rawRead (wrapped.getReg 0 + BitVec.ofNat 16 [0x0041#16, 0x6542#16].length) = 0x0000#16 := by
  refine ⟨fun w hw => ?_, by decide, fun k h => ?_, by decide⟩
  · rcases List.mem_pair.mp hw with rfl | rfl <;> decide
  · match k, h with
    | 0, _ => exact (by decide : wrapped.rawRead 0xFFFF#16 = 0x0041#16)
    | 1, _ => exact (by decide : wrapped.rawRead 0x0000#16 = 0x6542#16)

theorem witness_PutsWritesUpToTheZeroWord : ∃ (s : State) (ws : List Word), ws.length = 2 ∧ (∀ w ∈ ws, w ≠ 0x0000#16)
    ∧ ws.length < 65536 ∧ (∀ k (h : k < ws.length), s.rawRead (s.getReg 0 + BitVec.ofNat 16 k) = ws[k])
    ∧ s.rawRead (s.getReg 0 + BitVec.ofNat 16 ws.length) = 0x0000#16 :=
  ⟨wrapped, _, rfl, wrapped_string⟩

/-- The empty string. -/
theorem witness_PutspWritesPackedUpToTheZeroWord : ∃ (s : State) (ws : List Word), ws = [] ∧ (∀ w ∈ ws, w ≠ 0x0000#16)
    ∧ ws.length < 65536 ∧ (∀ k (h : k < ws.length), s.rawRead (s.getReg 0 + BitVec.ofNat 16 k) = ws[k])
    ∧ s.rawRead (s.getReg 0 + BitVec.ofNat 16 ws.length) = 0x0000#16 :=
  ⟨ready, [], rfl, by simp, by simp, fun _ h => (Nat.not_lt_zero _ h).elim, by decide⟩

/-- A memory with 1 in every word. -/
def ones (k n : Nat) : Memory := (List.range' k n).map fun a => (a, 0x0001#16)

theorem read_ones (n k a : Nat) (h1 : k ≤ a) (h2 : a < k + n) : Memory.read (ones k n) a = 0x0001#16 := by
  induction n generalizing k with
  | zero => omega
  | succ n ih =>
    simp only [ones, List.range'_succ, List.map_cons, Memory.read]
    split
    · rfl
    · exact ih (k + 1) (by omega) (by omega)

/-- A core inside a walk over that memory. -/
def endless (p : Pending) : State := { ready with mem := ones 0 65536, pending := some p }

theorem witness_WalkWithNoZeroWordNeverEnds : (∀ a : Word, (endless .puts).rawRead a ≠ 0x0000#16)
    ∧ (∀ a : Word, (endless .putsp).rawRead a ≠ 0x0000#16) ∧ (endless .puts).run = .running
    ∧ (endless .putsp).run = .running ∧ (endless .puts).pending = some .puts ∧ (endless .putsp).pending = some .putsp := by
  refine ⟨fun a => ?_, fun a => ?_, rfl, rfl, rfl, rfl⟩ <;>
    · show Memory.read (ones 0 65536) a.toNat ≠ _
      rw [read_ones 65536 0 a.toNat (by omega) (by omega)]; decide

/-- Held in each of GETC and IN, with no byte and with one. -/
theorem witness_HeldReadResumesWhenAByteArrives :
    ((ready.setPending (some .getc)).run = .running ∧ (ready.setPending (some .getc)).pending = some .getc
      ∧ (ready.setPending (some .getc)).consoleIn = [])
    ∧ ((ready.setPending (some .inEcho)).run = .running ∧ (ready.setPending (some .inEcho)).pending = some .inEcho
      ∧ (ready.setPending (some .inEcho)).consoleIn = [])
    ∧ (((withKey ready 0xE9#8).setPending (some .getc)).run = .running
      ∧ ((withKey ready 0xE9#8).setPending (some .getc)).pending = some .getc
      ∧ ((withKey ready 0xE9#8).setPending (some .getc)).consoleIn = [0xE9#8])
    ∧ ((withKey ready 0x00#8).setPending (some .inEcho)).run = .running
    ∧ ((withKey ready 0x00#8).setPending (some .inEcho)).pending = some .inEcho
    ∧ ((withKey ready 0x00#8).setPending (some .inEcho)).consoleIn = [0x00#8] := by decide

/-- On both sides of the services' range, and at both ends of the vectors. -/
theorem witness_UnknownVectorIsFatalAfterTheLink : (0x1F#8).toNat < 0x20 ∧ 0x25 < (0x26#8).toNat ∧ (0x00#8).toNat < 0x20
    ∧ 0x25 < (0xFF#8).toNat := by decide

/-- One image, and a second one whose words would pass 0xFFFF, with an odd last byte. -/
theorem witness_LaunchStartsAt3000WithZero :
    (State.launch [[0x30#8, 0x00#8, 0xF0#8, 0x25#8]]).isSome = true
      ∧ (State.launch [[0x40#8, 0x00#8], [0xFF#8, 0xFF#8, 0x00#8, 0x01#8, 0x00#8, 0x02#8, 0x7F#8]]).isSome = true := by
  decide

theorem witness_ResetStateIsAsListed : (State.launch [[0x00#8, 0x00#8, 0x00#8, 0x05#8]]).isSome = true := by decide

theorem witness_LoadPlacesTheWordsFromTheOrigin :
    ([] : List Byte).length ≤ 1 ∧ [0x7F#8].length ≤ 1 ∧ 0 < 65536 ∧ 65535 < 65536 := by decide

theorem witness_ResetAndLaunchMeetTheInvariant : ∃ s, State.launch [[0x30#8, 0x00#8, 0xF0#8, 0x25#8]] = some s := ⟨_, rfl⟩

theorem ready_inv : ready.Inv := ⟨⟨List.Pairwise.nil, by simp [ready, State.reset]⟩, rfl, fun h => (h rfl).elim⟩

/-- From a state of a run, and from one that holds a word at KBSR and runs HALT. -/
theorem witness_StepKeepsTheInvariant : (ready.Inv ∧ ∃ t, step ready = .next t)
    ∧ (ready.withFetchWord 16 0xF025).Inv ∧ ∃ t, step (ready.withFetchWord 16 0xF025) = .next t :=
  ⟨⟨ready_inv, _, rfl⟩, ⟨State.busWrite_wf _ _ ready_inv.1, rfl, fun h => (h rfl).elim⟩, _, rfl⟩

theorem witness_EveryScheduleKeepsTheInvariant :
    ready.Inv ∧ ∃ t, ready.runEvents [.core, .deliver 0x61#8, .core, .terminate] = some t := ⟨ready_inv, _, rfl⟩

/-- Each of the four causes. -/
theorem witness_RunEndsOnlyByHaltFaultOrTermination :
    (ready.run = .running ∧ ∃ t, ready.apply .terminate = some t ∧ t.run ≠ .running)
    ∧ (∃ t, (ready.withFetchWord 16 0xF025).apply .core = some t ∧ t.run ≠ .running)
    ∧ (∃ t, (ready.withFetchWord 16 0xD000).apply .core = some t ∧ t.run ≠ .running)
    ∧ ∃ t, (ready.withFetchWord 16 0xF026).apply .core = some t ∧ t.run ≠ .running :=
  ⟨⟨rfl, _, rfl, by decide⟩, ⟨_, rfl, by decide⟩, ⟨_, rfl, by decide⟩, _, rfl, by decide⟩

/-- Both sides of the equivalence can hold, and both can fail. -/
theorem witness_FatalTrapErrorHasOneCause : ready.run = .running
    ∧ (∃ t, exec (.trap 0#4 0xFF#8) ready = .next t ∧ t.run = .faultTrap)
    ∧ ∃ t, exec .halt ready = .next t ∧ t.run ≠ .faultTrap :=
  ⟨rfl, ⟨_, rfl, rfl⟩, _, rfl, by decide⟩

/-- An instruction of each row of the table, with a byte waiting for GETC. -/
theorem witness_RegistersAreWrittenOnlyByTheTable :
    (destReg (.ld 3 1#9) = some 3 ∧ ∃ t, exec (.ld 3 1#9) ready = .next t)
    ∧ (writesLink (.jsr 1#11) = true ∧ ∃ t, exec (.jsr 1#11) ready = .next t)
    ∧ (readsChar .getc = true ∧ (withKey ready 0x61#8).consoleIn ≠ [] ∧ ∃ t, exec .getc (withKey ready 0x61#8) = .next t)
    ∧ (destReg (.st 3 1#9) = none ∧ readsChar (.st 3 1#9) = false ∧ ∃ t, exec (.st 3 1#9) ready = .next t)
    ∧ (destReg .getc = none ∧ ready.consoleIn = [] ∧ ∃ t, exec .getc ready = .next t) :=
  ⟨⟨rfl, _, rfl⟩, ⟨rfl, _, rfl⟩, ⟨rfl, by decide, _, rfl⟩, ⟨rfl, rfl, _, rfl⟩, rfl, rfl, _, rfl⟩

/-- An instruction that is no BR, with another flag. -/
theorem witness_CondIsReadOnlyByBr : (∀ nzp off9, Instr.nop ≠ .br nzp off9) ∧ (∃ t, exec .nop ready = .next t)
    ∧ (∀ nzp off9, Instr.not 1 2 0b111111#6 ≠ .br nzp off9) ∧ ∃ t, exec (.not 1 2 0b111111#6) ready = .next t :=
  ⟨fun _ _ h => Instr.noConfusion h, ⟨_, rfl⟩, fun _ _ h => Instr.noConfusion h, _, rfl⟩

/-- A store that changes a word, a fetch whose poll changes KBSR, and a load whose poll changes KBDR (V6 row 5). -/
theorem witness_MemoryIsWrittenOnlyByStoresAndThePoll :
    (∃ t, step ((ready.setReg 0 0x1234#16).withFetchWord 16 0x3005) = .next t
      ∧ t.rawRead 0x3006#16 ≠ ((ready.setReg 0 0x1234#16).withFetchWord 16 0x3005).rawRead 0x3006#16)
    ∧ (∃ t, step (withKey (ready.setPc 0xFE00#16) 0x21#8) = .next t
      ∧ t.rawRead 0xFE00#16 ≠ (withKey (ready.setPc 0xFE00#16) 0x21#8).rawRead 0xFE00#16)
    ∧ ∃ t, step (withKey ((ready.busWrite 0x3002#16 0xFE00#16).withFetchWord 16 0xA401) 0x78#8) = .next t
      ∧ t.rawRead 0xFE02#16
        ≠ (withKey ((ready.busWrite 0x3002#16 0xFE00#16).withFetchWord 16 0xA401) 0x78#8).rawRead 0xFE02#16 :=
  ⟨⟨_, rfl, by decide⟩, ⟨_, rfl, by decide⟩, _, rfl, by decide⟩

theorem witness_StepAppendsOutputAndTakesAtMostOneByte :
    ∃ t, step (withKey (ready.withFetchWord 16 0xF023) 0x7A#8) = .next t := ⟨_, rfl⟩

/-- At a boundary, and inside a walk. -/
theorem witness_HostDeliversOrTerminates :
    (ready.run = .running ∧ ready.pending ≠ some .puts ∧ ready.pending ≠ some .putsp)
      ∧ (ready.setPending (some .putsp)).run = .running ∧ (ready.setPending (some .putsp)).pending = some .putsp := by
  decide

end Sys2Proof.Tests
end

section
/-! PROOFS. The operand and flag rules of 00_scope.md: sign extension (R10) and `setcc` (R14). -/

namespace Sys2Proof.Machine

/-! Sign extension: below the field's width its own bits, above it copies of its sign bit. -/

/-- One equation for every bit of the extended word. -/
theorem sext_getLsbD {n : Nat} (f : BitVec n) (k : Nat) :
    (sext f).getLsbD k = (decide (k < 16) && if k < n then f.getLsbD k else f.getLsbD (n - 1)) := by
  unfold sext
  rw [BitVec.getLsbD_signExtend, BitVec.msb_eq_getLsbD_last]

theorem sext_getLsbD_of_lt {n : Nat} (f : BitVec n) (hn : n ≤ 16) {k : Nat} (hk : k < n) :
    (sext f).getLsbD k = f.getLsbD k := by
  have hk16 : k < 16 := by omega
  rw [sext_getLsbD, if_pos hk, decide_eq_true hk16, Bool.true_and]

theorem sext_getLsbD_of_le {n : Nat} (f : BitVec n) {k : Nat} (hk : n ≤ k) (hk16 : k < 16) :
    (sext f).getLsbD k = f.getLsbD (n - 1) := by
  rw [sext_getLsbD, if_neg (Nat.not_lt.mpr hk), decide_eq_true hk16, Bool.true_and]

/-- The pseudocode of R10: a field whose sign bit is set gains `2^16 - 2^N`, with no reduction since it fits in the word. -/
theorem sext_toNat {n : Nat} (f : BitVec n) (hn : n ≤ 16) :
    (sext f).toNat = if f.getLsbD (n - 1) then f.toNat + (2 ^ 16 - 2 ^ n) else f.toNat := by
  unfold sext
  rw [BitVec.toNat_signExtend, BitVec.toNat_setWidth_of_le hn, BitVec.msb_eq_getLsbD_last]
  split <;> rfl

/-- Settles O16, from the bits of an extended field below and above its width and from its value as a number. -/
theorem signExtensionCopiesTheSignBit : Obligations.SignExtensionCopiesTheSignBit := by
  unfold Obligations.SignExtensionCopiesTheSignBit
  intro n f _ hn
  exact ⟨fun _ hk => sext_getLsbD_of_lt f hn hk, fun _ hk hk16 => sext_getLsbD_of_le f hk hk16, sext_toNat f hn⟩

/-! `setcc`: the flag and the frame. -/

theorem State.setcc_keepsRegs (s : State) (r : Reg) : KeepsRegs s (s.setcc r) [] :=
  fun q _ => s.setcc_getReg r q

theorem State.setcc_keepsMem (s : State) (r : Reg) : KeepsMem s (s.setcc r) :=
  s.setcc_rawRead r

theorem State.setcc_keepsConsole (s : State) (r : Reg) : KeepsConsole s (s.setcc r) :=
  ⟨s.setcc_consoleIn r, s.setcc_consoleOut r⟩

theorem State.setcc_keepsRun (s : State) (r : Reg) : KeepsRun s (s.setcc r) :=
  ⟨s.setcc_run r, s.setcc_fault r, s.setcc_pending r, s.setcc_params r⟩

/-- Settles O15: the flag is `condOf` of the register, whose zero test comes first, and `setcc` writes no other field. -/
theorem setccTestsZeroThenSign : Obligations.SetccTestsZeroThenSign := by
  unfold Obligations.SetccTestsZeroThenSign
  intro s r
  have hcond : (s.setcc r).cond
      = (if s.getReg r = 0x0000#16 then .z else if (s.getReg r).getLsbD 15 then .n else .p) := by
    rw [State.setcc_cond, condOf_eq]
  exact ⟨hcond, s.setcc_pc r, s.setcc_keepsRegs r, s.setcc_keepsMem r, s.setcc_keepsConsole r, s.setcc_keepsRun r⟩

end Sys2Proof.Machine
end

section
/-! PROOFS. The decode phase: which words it rejects, and which are fatal at decode (30_encoding.md R115, R116;
60_exceptions.md R250). -/

namespace Sys2Proof.Machine

/-- The opcode field, bit by bit, as the decoder tests it. -/
theorem opcodeOf_eq_bits (w : Word) :
    opcodeOf w = BitVec.ofBool (w.getLsbD 15) ++ BitVec.ofBool (w.getLsbD 14) ++ BitVec.ofBool (w.getLsbD 13)
      ++ BitVec.ofBool (w.getLsbD 12) := by
  refine BitVec.eq_of_getLsbD_eq fun k hk => ?_
  simp only [opcodeOf, BitVec.getLsbD_append, BitVec.getLsbD_extractLsb', BitVec.getLsbD_ofBool]
  interval_cases k <;> simp

theorem decodeTrap_fatalOpcode (w : Word) : (decodeTrap w).fatalOpcode = false := by
  unfold decodeTrap; split_ifs <;> rfl

/-- The services' own words have the unused bits 0000. -/
theorem decodeTrap_canonical (w : Word) : (decodeTrap w).canonical = (w.extractLsb' 8 4 == 0x0#4) := by
  unfold decodeTrap; split_ifs <;> subst_vars <;> rfl

/-- The two fatal opcodes are those of RTI and RES (30_encoding.md R116). -/
theorem decode_fatalOpcode (w : Word) :
    (decode w).fatalOpcode = (opcodeOf w == 0x8#4 || opcodeOf w == 0xD#4) := by
  rw [opcodeOf_eq_bits]
  unfold decode
  split <;> simp only [*, apply_ite Instr.fatalOpcode, decodeTrap_fatalOpcode] <;> simp [Instr.fatalOpcode]

/-- The rows of R115's table are the words the decoder reads as not canonical, RTI apart. -/
theorem unusedBitSet_eq (w : Word) : unusedBitSet w = (!(decode w).fatalOpcode && !(decode w).canonical) := by
  unfold unusedBitSet
  rw [opcodeOf_eq_bits]
  unfold decode
  split
  case h_13 => -- opcode 1100: RET, and JMP with its unused bits
    by_cases hret : w = 0xC1C0#16
    · subst hret; decide
    · simp only [*, if_false]
      simp [Instr.fatalOpcode, Instr.canonical, bne]
  all_goals
    simp only [*, apply_ite Instr.fatalOpcode, apply_ite Instr.canonical, decodeTrap_fatalOpcode, decodeTrap_canonical]
    simp [Instr.fatalOpcode, Instr.canonical, bne]

/-- FatalDecodeError's words, read off the decoded instruction. -/
theorem fatalWord_eq (policy : UnusedBitsPolicy) (w : Word) :
    fatalWord policy w = ((decode w).fatalOpcode || (policy == .fatal && unusedBitSet w)) := by
  rw [decode_fatalOpcode]; rfl

theorem decodeUnder_fatal_of_unusedBitSet {w : Word} (h : unusedBitSet w = true) :
    decodeUnder .fatal w = .error (.unusedBits w) := by
  rw [unusedBitSet_eq, Bool.and_eq_true, Bool.not_eq_true', Bool.not_eq_true'] at h
  obtain ⟨hop, hcanon⟩ := h
  simp [decodeUnder, hop, hcanon]

/-- A rejected word is fatal. -/
theorem fatalWord_of_decodeUnder_error {policy : UnusedBitsPolicy} {w : Word} {e : DecodeError}
    (h : decodeUnder policy w = .error e) : fatalWord policy w = true := by
  obtain ⟨rfl, hop, hcanon, -⟩ := decodeUnder_error h
  simp [fatalWord_eq, unusedBitSet_eq, hop, hcanon]

/-- A word that goes on to execute is fatal at decode only as RTI or RES (60_exceptions.md R262). -/
theorem fatalWord_of_decodeUnder_ok {policy : UnusedBitsPolicy} {w : Word} {i : Instr}
    (h : decodeUnder policy w = .ok i) : fatalWord policy w = i.fatalOpcode := by
  obtain rfl := decodeUnder_ok h
  cases hop : (decode w).fatalOpcode with
  | true => rw [fatalWord_eq, hop, Bool.true_or]
  | false =>
    cases policy with
    | ignore => simp [fatalWord_eq, hop]
    | fatal =>
      cases hset : unusedBitSet w with
      | false => simp [fatalWord_eq, hop, hset]
      | true => rw [decodeUnder_fatal_of_unusedBitSet hset] at h; cases h

theorem opcodeOf_append (o : BitVec 4) (x : BitVec 12) : opcodeOf (o ++ x) = o := BitVec.extractLsb'_append_eq_left

/-- The word of RTI or RES is fatal under either policy. -/
theorem fatalWord_encode {i : Instr} (policy : UnusedBitsPolicy) (h : i.fatalOpcode = true) :
    fatalWord policy (encode i) = true := by
  cases i with
  | rti u => simp [fatalWord, encode, opcodeOf_append]
  | res x => simp [fatalWord, encode, opcodeOf_append]
  | _ => cases h

theorem opcodeOf_encode_trap (u : BitVec 4) (v : BitVec 8) : opcodeOf (encode (.trap u v)) = 0xF#4 :=
  (BitVec.extractLsb'_append_eq_of_le (by decide)).trans BitVec.extractLsb'_append_eq_left

theorem vector_encode_trap (u : BitVec 4) (v : BitVec 8) : (encode (.trap u v)).extractLsb' 0 8 = v :=
  BitVec.extractLsb'_append_eq_right

/-- RTI and RES are no TRAP. -/
theorem fatalOpcode_of_trapVector {i : Instr} {v : BitVec 8} (h : trapVector i = some v) : i.fatalOpcode = false := by
  cases i with
  | rti u => cases h
  | res x => cases h
  | _ => rfl

end Sys2Proof.Machine
end

section
/-! PROOFS. The instruction cycle: the fetch (10_state.md R46), a step at a boundary (R45 to R48), the final run states (R42)
and the launch (R34, R39). -/

namespace Sys2Proof.Machine

/-! The fetch. -/

section Fetch
variable (s : State)

@[simp] theorem State.fetch_pc : s.fetch.2.pc = s.pc + 1#16 := rfl
@[simp] theorem State.fetch_cond : s.fetch.2.cond = s.cond := s.afterRead_cond s.pc
@[simp] theorem State.fetch_run : s.fetch.2.run = s.run := s.afterRead_run s.pc
@[simp] theorem State.fetch_fault : s.fetch.2.fault = s.fault := s.afterRead_fault s.pc
@[simp] theorem State.fetch_pending : s.fetch.2.pending = s.pending := s.afterRead_pending s.pc
@[simp] theorem State.fetch_consoleOut : s.fetch.2.consoleOut = s.consoleOut := s.afterRead_consoleOut s.pc
@[simp] theorem State.fetch_getReg (r : Reg) : s.fetch.2.getReg r = s.getReg r := s.afterRead_getReg s.pc r

theorem State.fetch_consoleIn :
    s.fetch.2.consoleIn = if s.pc = 0xFE00#16 then s.consoleIn.tail else s.consoleIn := s.afterRead_consoleIn s.pc

theorem State.fetch_word :
    s.fetch.1 =
      if s.pc = 0xFE00#16 then (if s.consoleIn.isEmpty then 0x0000#16 else 0x8000#16) else s.rawRead s.pc :=
  s.busRead_value s.pc

theorem State.fetch_rawRead_of_ne (h : s.pc ≠ 0xFE00#16) (a : Word) : s.fetch.2.rawRead a = s.rawRead a := by
  rw [State.fetch_snd, State.afterRead_ne s h, State.setPc_rawRead]

theorem State.fetch_keepsRun : KeepsRun s s.fetch.2 :=
  ⟨s.fetch_run, s.fetch_fault, s.fetch_pending, fetch_params s⟩

end Fetch

theorem State.fetch_wf {s : State} (h : Memory.wf s.mem) : Memory.wf s.fetch.2.mem := State.afterRead_wf s.pc h

/-- Settles O8: the fetch is the bus read at `pc`, whose value and frame the laws of `afterRead` give. -/
theorem fetchReadsAndAdvances : Obligations.FetchReadsAndAdvances := by
  unfold Obligations.FetchReadsAndAdvances
  intro s
  refine ⟨s.fetch_pc, s.fetch_cond, fun r _ => s.fetch_getReg r, s.fetch_keepsRun, s.fetch_consoleOut,
    fun hpc => ⟨?_, s.fetch_rawRead_of_ne hpc, ?_⟩, fun hpc => ?_⟩
  · rw [State.fetch_word, if_neg hpc]
  · rw [State.fetch_consoleIn, if_neg hpc]
  · rw [State.fetch_word, if_pos hpc]

/-! A step at an instruction boundary. -/

theorem step_of_decoded {s : State} {i : Instr} (hr : s.run = .running) (hp : s.pending = none)
    (hd : decodeUnder s.params.unusedBits s.fetch.1 = .ok i) : step s = exec i s.fetch.2 := by
  rw [step_of_boundary hr hp]
  exact decodeAndExecute_ok (by rw [fetch_params, hd])

theorem step_of_rejected {s : State} {w : Word} (hr : s.run = .running) (hp : s.pending = none)
    (hd : decodeUnder s.params.unusedBits s.fetch.1 = .error (.unusedBits w)) :
    step s = .next (s.fetch.2.raiseDecode w) := by
  rw [step_of_boundary hr hp, decodeAndExecute, fetch_params, hd]

/-- Settles O6. -/
theorem stepRunsTheDecodedInstruction : Obligations.StepRunsTheDecodedInstruction := by
  unfold Obligations.StepRunsTheDecodedInstruction
  intro s i hr hp hd
  exact step_of_decoded hr hp hd

/-- Settles O7: the error is raised in the state the fetch leaves, one past the word's address. -/
theorem stepRejectsNonCanonicalWord : Obligations.StepRejectsNonCanonicalWord := by
  unfold Obligations.StepRejectsNonCanonicalWord
  intro s hr hp hpolicy hw
  have hd : decodeUnder s.params.unusedBits s.fetch.1 = .error (.unusedBits s.fetch.1) := by
    rw [hpolicy]; exact decodeUnder_fatal_of_unusedBitSet hw
  have hfault : (s.fetch.2.raiseDecode s.fetch.1).fault = some ⟨.decode, s.fetch.1, s.pc, 0x00#8⟩ := by
    rw [State.raiseDecode, State.raiseFatal_fault, State.fetch_pc, BitVec.add_sub_cancel]
  exact ⟨_, step_of_rejected hr hp hd, rfl, hfault, s.fetch_pc, s.fetch_cond, fun r _ => s.fetch_getReg r,
    fun _ => rfl, rfl, s.fetch_consoleOut⟩

/-! The final run states. -/

theorem State.apply_of_stopped {s : State} (h : s.run ≠ .running) (e : Event) : s.apply e = none := by
  cases e with
  | core => simp [State.apply, step_of_stopped h]
  | deliver b => simp [State.apply, State.deliver, h]
  | terminate => simp [State.apply, State.terminate, h]

/-- Settles O10. -/
theorem finalStatesTakeNoStep : Obligations.FinalStatesTakeNoStep := by
  unfold Obligations.FinalStatesTakeNoStep
  intro s h
  exact ⟨step_of_stopped h, State.apply_of_stopped h⟩

/-! The launch. -/

/-- A launch is reset over another memory (70_reset_and_hazards.md R290). -/
theorem State.launch_eq {images : List (List Byte)} {s : State} (h : State.launch images = some s) :
    s = { State.reset with mem := s.mem } := by
  unfold State.launch at h
  cases images with
  | nil => cases h
  | cons image rest =>
    dsimp only at h
    cases hl : loadImages State.reset.mem (image :: rest) with
    | none => rw [hl] at h; cases h
    | some m => rw [hl] at h; cases h; rfl

/-- Settles O45: a launch gives reset's own `pc` and `cond`. -/
theorem launchStartsAt3000WithZero : Obligations.LaunchStartsAt3000WithZero := by
  unfold Obligations.LaunchStartsAt3000WithZero
  refine ⟨rfl, rfl, fun images s h => ?_⟩
  rw [State.launch_eq h]
  exact ⟨rfl, rfl⟩

end Sys2Proof.Machine
end

section
/-! PROOFS. Every step keeps the invariant (10_state.md R41, R50; 60_exceptions.md R250 to R253, R277). -/

namespace Sys2Proof.Machine

/-! What the invariant asks in each run state a step can reach. -/

theorem State.inv_of_running {t : State} (hmem : Memory.wf t.mem) (hrun : t.run = .running) (hfault : t.fault = none)
    (hseven : t.pending ≠ none → t.getReg 7 = t.pc) : t.Inv :=
  ⟨hmem, by rw [State.FaultOk, hrun]; exact hfault, fun hp => ⟨hrun, hseven hp⟩⟩

/-- Outside a service only memory and the fault record matter. -/
theorem State.inv_of_boundary {t : State} (hmem : Memory.wf t.mem) (hpend : t.pending = none) (hfault : t.FaultOk) :
    t.Inv :=
  ⟨hmem, hfault, fun hp => (hp hpend).elim⟩

theorem State.Inv.fault_of_running {s : State} (h : s.Inv) (hrun : s.run = .running) : s.fault = none := by
  obtain ⟨-, hfault, -⟩ := h
  rwa [State.FaultOk, hrun] at hfault

/-- FatalDecodeError for a word that raises it keeps the invariant. -/
theorem State.raiseDecode_inv {s : State} {w : Word} (hmem : Memory.wf s.mem) (hpend : s.pending = none)
    (hw : fatalWord s.params.unusedBits w = true) : (s.raiseDecode w).Inv :=
  State.inv_of_boundary hmem hpend ⟨w, rfl, hw⟩

/-- FatalTrapError after the link keeps the invariant: the vector is unrecognized, and R7 holds `pc+`. -/
theorem State.raiseTrap_inv {s : State} (u : BitVec 4) {v : BitVec 8} (hmem : Memory.wf s.mem) (hpend : s.pending = none)
    (hv : serviceOf v = none) : (s.link.raiseTrap (encode (.trap u v)) v).Inv := by
  have hvec := vector_encode_trap u v
  refine State.inv_of_boundary hmem hpend ⟨encode (.trap u v), ?_, opcodeOf_encode_trap u v, ?_, s.link_getReg_seven⟩
  · rw [hvec]; rfl
  · rw [hvec]; exact (serviceOf_eq_none_iff v).1 hv

/-- A service keeps the invariant: R7 holds `pc+`, and HALT alone leaves RUNNING. -/
theorem State.serve_inv {s : State} (p : Service) (hmem : Memory.wf s.mem) (hrun : s.run = .running)
    (hfault : s.fault = none) (hpend : s.pending = none) : (s.link.serve p).Inv := by
  obtain ⟨hframe, hrun', -⟩ := s.serve_frame p
  have hmem' : Memory.wf (s.link.serve p).mem := by rw [hframe.mem]; exact hmem
  have hfault' : (s.link.serve p).fault = none := by rw [hframe.fault]; exact hfault
  have hseven : (s.link.serve p).getReg 7 = (s.link.serve p).pc := by
    rw [hframe.regs 7 (by decide), hframe.pc, State.link_getReg_seven, State.link_pc]
  by_cases hp : p = .halt
  · subst hp
    exact State.inv_of_boundary hmem' hpend ⟨hfault', hseven⟩
  · rw [if_neg hp, hrun] at hrun'
    exact State.inv_of_running hmem' hrun' hfault' fun _ => hseven

/-- Executing an instruction at a boundary of a run gives the invariant. -/
theorem exec_inv {i : Instr} {s t : State} (hmem : Memory.wf s.mem) (hrun : s.run = .running) (hfault : s.fault = none)
    (hpend : s.pending = none) (h : exec i s = .next t) : t.Inv := by
  cases exec_effect h with
  | result dr u v hd hv hl hs hu ht =>
    subst ht
    have hf := hu.frame
    exact State.inv_of_running (hf.wf hmem) (hf.run.trans hrun) (hf.fault.trans hfault)
      fun hp => (hp (hf.pending.trans hpend)).elim
  | store a v u hd hv hl hs hu ht =>
    subst ht
    have hf := hu.frame
    exact State.inv_of_running (State.busWrite_wf a v (hf.wf hmem)) (hf.run.trans hrun) (hf.fault.trans hfault)
      fun hp => (hp (hf.pending.trans hpend)).elim
  | goto v hd hv hl hs ht => subst ht; exact State.inv_of_running hmem hrun hfault fun hp => (hp hpend).elim
  | call v hd hv hl hs ht => subst ht; exact State.inv_of_running hmem hrun hfault fun hp => (hp hpend).elim
  | service v p hd hv hl hs hp ht => subst ht; exact State.serve_inv p hmem hrun hfault hpend
  | badVector u v hi hp ht => subst hi ht; exact State.raiseTrap_inv u hmem hpend hp
  | fatal hd hv hl hs hf ht => subst ht; exact State.raiseDecode_inv hmem hpend (fatalWord_encode _ hf)

/-- Going on inside a service keeps the invariant: `pc` and R7 stay as TRAP left them. -/
theorem State.resume_inv {s : State} {p : Pending} (h : s.Inv) (hrun : s.run = .running) (hpend : s.pending = some p) :
    (s.resume p).Inv := by
  obtain ⟨hmem, -, hpending⟩ := id h
  obtain ⟨-, hseven⟩ := hpending (by simp [hpend])
  obtain ⟨hframe, hrun', -⟩ := s.resume_frame p
  refine State.inv_of_running ?_ (hrun'.trans hrun) (hframe.fault.trans (h.fault_of_running hrun)) fun _ => ?_
  · rw [hframe.mem]; exact hmem
  · rw [hframe.regs 7 (by decide), hframe.pc, hseven]

/-- Settles O49, by the three ways a step answers a next state. -/
theorem stepKeepsTheInvariant : Obligations.StepKeepsTheInvariant := by
  unfold Obligations.StepKeepsTheInvariant
  intro s t hinv h
  have hmem : Memory.wf s.fetch.2.mem := State.fetch_wf hinv.1
  obtain ⟨hrun, ⟨p, hpend, rfl⟩ | ⟨hpend, i, -, hexec⟩ | ⟨hpend, hreject, rfl⟩⟩ := step_next_cases h
  · exact State.resume_inv hinv hrun hpend
  · exact exec_inv hmem (s.fetch_run.trans hrun) (s.fetch_fault.trans (hinv.fault_of_running hrun))
      (s.fetch_pending.trans hpend) hexec
  · refine State.raiseDecode_inv hmem (s.fetch_pending.trans hpend) ?_
    rw [fetch_params]
    exact fatalWord_of_decodeUnder_error hreject

end Sys2Proof.Machine
end

section
/-! PROOFS. How a run ends (10_state.md R51): every change of the run state has its own cause. -/

namespace Sys2Proof.Machine

theorem State.apply_core_iff {s t : State} : s.apply .core = some t ↔ step s = .next t := by
  unfold State.apply
  cases step s <;> simp

theorem State.deliver_run {s t : State} {b : Byte} (h : s.deliver b = some t) : t.run = s.run := by
  unfold State.deliver at h
  split at h
  · cases h; rfl
  · cases h

theorem State.terminate_run {s t : State} (h : s.terminate = some t) : t.run = .terminated := by
  unfold State.terminate at h
  split at h
  · cases h; rfl
  · cases h

/-- An instruction leaves the run state, or is RTI or RES, HALT, or a TRAP with an unrecognized vector. -/
theorem exec_run_cases {i : Instr} {s t : State} (h : exec i s = .next t) :
    t.run = s.run
      ∨ (t.run = .faultDecode ∧ i.fatalOpcode = true)
      ∨ (t.run = .halted ∧ trapVector i = some 0x25#8)
      ∨ (t.run = .faultTrap ∧ ∃ v, trapVector i = some v ∧ (v.toNat < 0x20 ∨ 0x25 < v.toNat)) := by
  cases exec_effect h with
  | result dr u v hd hv hl hs hu ht => subst ht; exact .inl hu.frame.run
  | store a v u hd hv hl hs hu ht => subst ht; exact .inl hu.frame.run
  | goto v hd hv hl hs ht => subst ht; exact .inl rfl
  | call v hd hv hl hs ht => subst ht; exact .inl rfl
  | service v p hd hv hl hs hp ht =>
    subst ht
    obtain ⟨-, hrun, -⟩ := s.serve_frame p
    by_cases hh : p = .halt
    · subst hh
      exact .inr (.inr (.inl ⟨hrun, by rw [hv, serviceOf_halt hp]⟩))
    · exact .inl (by rw [hrun, if_neg hh])
  | badVector u v hi hp ht =>
    subst hi ht
    exact .inr (.inr (.inr ⟨rfl, v, rfl, (serviceOf_eq_none_iff v).1 hp⟩))
  | fatal hd hv hl hs hf ht => subst ht; exact .inr (.inl ⟨rfl, hf⟩)

/-- A RUNNING core has a step: every instruction has a meaning, and so has an unfinished service. -/
theorem step_total {s : State} (hr : s.run = .running) : ∃ t, step s = .next t := by
  cases hp : s.pending with
  | some p => exact ⟨_, step_of_pending hr hp⟩
  | none =>
    cases hd : decodeUnder s.params.unusedBits s.fetch.1 with
    | ok i => rw [step_of_decoded hr hp hd]; exact exec_total i _
    | error e =>
      obtain ⟨w⟩ := e
      exact ⟨_, step_of_rejected hr hp hd⟩

/-- A step that ends the run fetched the word that ends it. -/
theorem step_ends_run_cases {s t : State} (h : step s = .next t) (ht : t.run ≠ .running) :
    s.pending = none ∧
      ((t.run = .faultDecode ∧ fatalWord s.params.unusedBits s.fetch.1 = true)
        ∨ (t.run = .halted ∧ fatalWord s.params.unusedBits s.fetch.1 = false
            ∧ trapVector (decode s.fetch.1) = some 0x25#8)
        ∨ (t.run = .faultTrap ∧ fatalWord s.params.unusedBits s.fetch.1 = false
            ∧ ∃ v, trapVector (decode s.fetch.1) = some v ∧ (v.toNat < 0x20 ∨ 0x25 < v.toNat))) := by
  obtain ⟨hrun, ⟨p, -, rfl⟩ | ⟨hpend, i, hd, hexec⟩ | ⟨hpend, hreject, rfl⟩⟩ := step_next_cases h
  · obtain ⟨-, hrun', -⟩ := s.resume_frame p
    exact (ht (hrun'.trans hrun)).elim
  · have hword := fatalWord_of_decodeUnder_ok hd
    obtain rfl := decodeUnder_ok hd
    refine ⟨hpend, ?_⟩
    obtain hsame | ⟨hend, hfatal⟩ | ⟨hend, hvec⟩ | ⟨hend, v, hvec, hout⟩ := exec_run_cases hexec
    · exact (ht (by rw [hsame, State.fetch_run, hrun])).elim
    · exact .inl ⟨hend, by rw [hword, hfatal]⟩
    · exact .inr (.inl ⟨hend, by rw [hword, fatalOpcode_of_trapVector hvec], hvec⟩)
    · exact .inr (.inr ⟨hend, by rw [hword, fatalOpcode_of_trapVector hvec], v, hvec, hout⟩)
  · exact ⟨hpend, .inl ⟨rfl, fatalWord_of_decodeUnder_error hreject⟩⟩

/-- Settles O51, by the three events of a run. -/
theorem runEndsOnlyByHaltFaultOrTermination : Obligations.RunEndsOnlyByHaltFaultOrTermination := by
  unfold Obligations.RunEndsOnlyByHaltFaultOrTermination
  refine ⟨fun s t e hr h ht => ?_, fun s hr => step_total hr⟩
  cases e with
  | core => exact .inr ⟨rfl, step_ends_run_cases (State.apply_core_iff.1 h) ht⟩
  | deliver b => exact (ht ((State.deliver_run h).trans hr)).elim
  | terminate => exact .inl ⟨rfl, State.terminate_run h⟩

end Sys2Proof.Machine
end

section
/-! PROOFS. Who writes the registers and the flags, and who reads the flags (10_state.md R31, R38). -/

namespace Sys2Proof.Machine

/-! Which instructions read a character. -/

theorem readsChar_of_no_vector {i : Instr} (h : trapVector i = none) : readsChar i = false := by
  simp [readsChar, h]

/-- GETC and IN are the services that read a character. -/
theorem serviceOf_char {v : BitVec 8} {p : Service} (hp : serviceOf v = some p) :
    v = 0x20#8 ∨ v = 0x23#8 ↔ p = .getc ∨ p = .inEcho := by
  constructor
  · rintro (rfl | rfl)
    · exact .inl (Option.some.inj hp).symm
    · exact .inr (Option.some.inj hp).symm
  · rintro (rfl | rfl)
    · exact .inl (serviceOf_getc hp)
    · exact .inr (serviceOf_inEcho hp)

theorem readsChar_iff {i : Instr} {v : BitVec 8} {p : Service} (hv : trapVector i = some v) (hp : serviceOf v = some p) :
    readsChar i = true ↔ p = .getc ∨ p = .inEcho := by
  simp [readsChar, hv, ← serviceOf_char hp]

theorem readsChar_of_bad_vector {u : BitVec 4} {v : BitVec 8} (h : serviceOf v = none) :
    readsChar (.trap u v) = false := by
  have hout := (serviceOf_eq_none_iff v).1 h
  have h1 : v ≠ 0x20#8 := by rintro rfl; simp at hout
  have h2 : v ≠ 0x23#8 := by rintro rfl; simp at hout
  simp [readsChar, trapVector, h1, h2]

/-! What a service does to the registers and the flags. -/

/-- A service that reads no character, or finds none, writes no register but R7, and no flag. -/
theorem State.serve_no_char (s : State) (p : Service) (h : ¬(p = .getc ∨ p = .inEcho) ∨ s.consoleIn = []) :
    (s.link.serve p).regs = s.link.regs ∧ (s.link.serve p).cond = s.cond := by
  by_cases hp : p = .getc ∨ p = .inEcho
  · have hc : s.consoleIn = [] := h.resolve_left (not_not_intro hp)
    obtain rfl | rfl := hp
    · rw [State.serve, State.serveGetc, State.readGetc_nil (s := s.link) hc]; exact ⟨rfl, rfl⟩
    · rw [State.serve, State.serveIn, State.readEcho_nil (by exact hc)]; exact ⟨rfl, rfl⟩
  · obtain ⟨h1, h2⟩ := not_or.1 hp
    obtain ⟨hregs, hcond, -⟩ := s.serve_quiet h1 h2
    exact ⟨hregs, hcond⟩

/-- GETC and IN with a byte waiting end in the write of R0 and the flags from it. -/
theorem State.serve_char {s : State} {p : Service} (hp : p = .getc ∨ p = .inEcho) (hc : s.consoleIn ≠ []) :
    ∃ (u : State) (v : Word), s.link.serve p = u.writeResult 0 v := by
  obtain ⟨b, rest, hc⟩ := List.exists_cons_of_ne_nil hc
  obtain rfl | rfl := hp
  · exact ⟨_, _, State.readGetc_cons (s := s.link) hc⟩
  · exact ⟨_, _, State.readEcho_cons (s := s.link.consoleWrite s.link.params.promptText) hc⟩

/-! R31's table. -/

theorem State.writeResult_setcc (s : State) (r : Reg) (v : Word) : (s.writeResult r v).setcc r = s.writeResult r v := rfl

theorem cond_of_eq_setcc {t : State} {r : Reg} (h : t = t.setcc r) : t.cond = condOf (t.getReg r) :=
  congrArg State.cond h

/-- First row: an instruction with a destination ends with `setcc` of it. -/
theorem exec_setcc_destReg {i : Instr} {s t : State} {dr : Reg} (h : exec i s = .next t) (hdr : destReg i = some dr) :
    t = t.setcc dr := by
  cases exec_effect h with
  | result dr' u v hd hv hl hs hu ht =>
    obtain rfl : dr' = dr := Option.some.inj (hd.symm.trans hdr)
    rw [ht, State.writeResult_setcc]
  | badVector u v hi hp ht => rw [hi] at hdr; cases hdr
  | _ => cases ‹destReg i = none›.symm.trans hdr

/-- Fourth row: GETC and IN that read a byte end with `setcc` of R0. -/
theorem exec_setcc_char {i : Instr} {s t : State} (h : exec i s = .next t) (hi : readsChar i = true)
    (hc : s.consoleIn ≠ []) : t = t.setcc 0 := by
  cases exec_effect h with
  | service v p hd hv hl hs hp ht =>
    obtain ⟨u, w, hserve⟩ := State.serve_char ((readsChar_iff hv hp).1 hi) hc
    rw [ht, hserve, State.writeResult_setcc]
  | badVector u v hi' hp ht =>
    subst hi'
    cases (readsChar_of_bad_vector hp).symm.trans hi
  | _ => cases (readsChar_of_no_vector ‹trapVector i = none›).symm.trans hi

/-- Every other instruction keeps the flags, and so do GETC and IN when they are held. -/
theorem exec_keeps_cond {i : Instr} {s t : State} (h : exec i s = .next t) (hd : destReg i = none)
    (hc : readsChar i = false ∨ s.consoleIn = []) : t.cond = s.cond := by
  cases exec_effect h with
  | result dr u v hdr hv hl hs hu ht => rw [hdr] at hd; cases hd
  | store a v u hd hv hl hs hu ht => rw [ht, State.busWrite_cond, hu.frame.cond]
  | goto v hd hv hl hs ht => rw [ht, State.setPc_cond]
  | call v hd hv hl hs ht => rw [ht, State.setPc_cond, State.link_cond]
  | service v p hd hv hl hs hp ht =>
    have hno : ¬(p = .getc ∨ p = .inEcho) ∨ s.consoleIn = [] :=
      hc.imp_left fun hf => by rw [← readsChar_iff hv hp, hf]; exact Bool.false_ne_true
    rw [ht, (s.serve_no_char p hno).2]
  | badVector u v hi hp ht => rw [ht, State.raiseTrap, State.raiseFatal_cond, State.link_cond]
  | fatal hd hv hl hs hf ht => rw [ht, State.raiseDecode, State.raiseFatal_cond]

/-- Second and third rows: the link. -/
theorem exec_link {i : Instr} {s t : State} (h : exec i s = .next t) (hi : writesLink i = true) :
    t.getReg 7 = s.pc := by
  cases exec_effect h with
  | call v hd hv hl hs ht => rw [ht, State.setPc_getReg, State.link_getReg_seven]
  | service v p hd hv hl hs hp ht =>
    obtain ⟨hframe, -⟩ := s.serve_frame p
    rw [ht, hframe.regs 7 (by decide), State.link_getReg_seven]
  | badVector u v hi' hp ht => rw [ht, State.raiseTrap, State.raiseFatal_getReg, State.link_getReg_seven]
  | _ => cases ‹writesLink i = false›.symm.trans hi

theorem State.link_getReg_changed {s : State} {r : Reg} (h : s.link.getReg r ≠ s.getReg r) : r = 7 := by
  by_contra hr
  exact h (by rw [State.link_getReg, if_neg hr])

/-- A register that an instruction changed is one the table gives it. -/
theorem exec_changed_reg {i : Instr} {s t : State} {r : Reg} (h : exec i s = .next t) (hr : t.getReg r ≠ s.getReg r) :
    destReg i = some r ∨ (writesLink i = true ∧ r = 7) ∨ (readsChar i = true ∧ r = 0) := by
  cases exec_effect h with
  | result dr u v hd hv hl hs hu ht =>
    subst ht
    by_cases hdr : r = dr
    · exact .inl (hdr ▸ hd)
    · exact (hr ((State.writeResult_getReg_ne u v hdr).trans (hu.getReg r))).elim
  | store a v u hd hv hl hs hu ht => subst ht; exact (hr (hu.getReg r)).elim
  | goto v hd hv hl hs ht => subst ht; exact (hr rfl).elim
  | call v hd hv hl hs ht => subst ht; exact .inr (.inl ⟨hl, State.link_getReg_changed hr⟩)
  | service v p hd hv hl hs hp ht =>
    subst ht
    by_cases hchar : (p = .getc ∨ p = .inEcho) ∧ r = 0
    · exact .inr (.inr ⟨(readsChar_iff hv hp).2 hchar.1, hchar.2⟩)
    · have hlink : (s.link.serve p).getReg r = s.link.getReg r := by
        by_cases hr0 : r = 0
        · obtain ⟨hregs, -⟩ := s.serve_no_char p (.inl fun hp' => hchar ⟨hp', hr0⟩)
          rw [State.getReg, State.getReg, hregs]
        · obtain ⟨hframe, -⟩ := s.serve_frame p
          exact hframe.regs r hr0
      rw [hlink] at hr
      exact .inr (.inl ⟨hl, State.link_getReg_changed hr⟩)
  | badVector u v hi hp ht => subst hi ht; exact .inr (.inl ⟨rfl, State.link_getReg_changed hr⟩)
  | fatal hd hv hl hs hf ht => subst ht; exact (hr rfl).elim

/-- Settles O53, a row of the table at a time; `ADD Rr, Rr, #1` reads and writes register `r`. -/
theorem registersAreWrittenOnlyByTheTable : Obligations.RegistersAreWrittenOnlyByTheTable := by
  unfold Obligations.RegistersAreWrittenOnlyByTheTable
  refine ⟨fun i s t h => ⟨fun r hr => exec_changed_reg h hr, fun dr hd => cond_of_eq_setcc (exec_setcc_destReg h hd),
    exec_link h, fun hi hc => cond_of_eq_setcc (exec_setcc_char h hi hc), exec_keeps_cond h⟩,
    fun r => ⟨.addImm r r 1#5, fun s => ⟨_, rfl, ?_⟩⟩⟩
  have hone : sext 1#5 = 1#16 := by decide
  rw [State.writeResult_getReg_same, hone]

end Sys2Proof.Machine
end

section
/-! PROOFS. The flags are an input of BR alone (10_state.md R38): every other instruction overwrites them, or keeps whatever
they were. -/

namespace Sys2Proof.Machine

/-- What an operation that does not read the flags gives from the flags `c`, where it gives `t` from the flags `c₀`: `t` again,
its flags overwritten; or `t` with `c`, where `t` keeps `c₀`. -/
inductive CondUnread (c₀ : Cond) (t : State) (c : Cond) : State → Prop where
  | overwritten : CondUnread c₀ t c t
  | kept (h : t.cond = c₀) : CondUnread c₀ t c (t.setCond c)

theorem CondUnread.same_but_cond {c₀ c : Cond} {t t' : State} (h : CondUnread c₀ t c t') :
    t'.setCond .z = t.setCond .z ∧ (t'.cond = t.cond ∨ (t'.cond = c ∧ t.cond = c₀)) := by
  cases h with
  | overwritten => exact ⟨rfl, .inl rfl⟩
  | kept h => exact ⟨rfl, .inr ⟨rfl, h⟩⟩

/-! The operations. -/

section SetCond
variable (s : State) (c : Cond)

theorem State.keyboardPoll_setCond : (s.setCond c).keyboardPoll = s.keyboardPoll.setCond c := by
  cases hc : s.consoleIn with
  | nil => rw [State.keyboardPoll_nil hc, State.keyboardPoll_nil (s := s.setCond c) hc]; rfl
  | cons k rest => rw [State.keyboardPoll_cons hc, State.keyboardPoll_cons (s := s.setCond c) hc]; rfl

theorem State.afterRead_setCond (a : Word) : (s.setCond c).afterRead a = (s.afterRead a).setCond c := by
  by_cases ha : a = 0xFE00#16
  · rw [ha, State.afterRead_kbsr, State.afterRead_kbsr, State.keyboardPoll_setCond]
  · rw [State.afterRead_ne _ ha, State.afterRead_ne _ ha]

theorem State.busRead_setCond (a : Word) :
    (s.setCond c).busRead a = ((s.busRead a).1, (s.busRead a).2.setCond c) := by
  rw [State.busRead, State.afterRead_setCond, State.setCond_rawRead]; rfl

theorem State.loadFrom_setCond (dr : Reg) (a : Word) : (s.setCond c).loadFrom dr a = s.loadFrom dr a := by
  rw [State.loadFrom, State.busRead_setCond]; rfl

theorem State.branch_never (off9 : BitVec 9) : s.branch 0b000#3 off9 = s := by
  simp [State.branch, taken]

theorem State.readGetc_setCond : CondUnread s.cond s.readGetc c (s.setCond c).readGetc := by
  cases hc : s.consoleIn with
  | nil => rw [State.readGetc_nil hc, State.readGetc_nil (s := s.setCond c) hc]; exact .kept rfl
  | cons b rest => rw [State.readGetc_cons hc, State.readGetc_cons (s := s.setCond c) hc]; exact .overwritten

theorem State.readEcho_setCond : CondUnread s.cond s.readEcho c (s.setCond c).readEcho := by
  cases hc : s.consoleIn with
  | nil => rw [State.readEcho_nil hc, State.readEcho_nil (s := s.setCond c) hc]; exact .kept rfl
  | cons b rest => rw [State.readEcho_cons hc, State.readEcho_cons (s := s.setCond c) hc]; exact .overwritten

theorem State.writeString_setCond (emit : Word → List Byte) (p : Pending) :
    CondUnread s.cond (s.writeString emit p) c ((s.setCond c).writeString emit p) := by
  have hwalk := State.walk_congr (s := s) (t := s.setCond c) emit rfl Config.memWords (s.getReg 0)
  rw [State.writeString, State.writeString, State.setCond_getReg, hwalk]
  split <;> exact .kept rfl

theorem State.serve_setCond (p : Service) : CondUnread s.cond (s.link.serve p) c ((s.setCond c).link.serve p) := by
  cases p with
  | getc => exact s.link.readGetc_setCond c
  | out => exact .kept rfl
  | puts => exact s.link.writeString_setCond c _ _
  | inEcho => exact (s.link.consoleWrite s.params.promptText).readEcho_setCond c
  | putsp => exact s.link.writeString_setCond c _ _
  | halt => exact .kept rfl

end SetCond

/-- Execution reads the flags in BR alone. -/
theorem exec_setCond {i : Instr} (hbr : ∀ nzp off9, i ≠ .br nzp off9) (s : State) (c : Cond) :
    ∃ t t', exec i s = .next t ∧ exec i (s.setCond c) = .next t' ∧ CondUnread s.cond t c t' := by
  cases i with
  | br nzp off9 => exact (hbr nzp off9 rfl).elim
  | addReg dr sr1 u sr2 => exact ⟨_, _, rfl, rfl, .overwritten⟩
  | addImm dr sr1 imm5 => exact ⟨_, _, rfl, rfl, .overwritten⟩
  | andReg dr sr1 u sr2 => exact ⟨_, _, rfl, rfl, .overwritten⟩
  | andImm dr sr1 imm5 => exact ⟨_, _, rfl, rfl, .overwritten⟩
  | not dr sr u => exact ⟨_, _, rfl, rfl, .overwritten⟩
  | lea dr off9 => exact ⟨_, _, rfl, rfl, .overwritten⟩
  | ld dr off9 => exact ⟨_, _, rfl, congrArg Host.Outcome.next (s.loadFrom_setCond c dr _), .overwritten⟩
  | ldr dr baseR off6 => exact ⟨_, _, rfl, congrArg Host.Outcome.next (s.loadFrom_setCond c dr _), .overwritten⟩
  | ldi dr off9 =>
    refine ⟨_, _, rfl, ?_, .overwritten⟩
    rw [exec, execLdi, State.busRead_setCond, State.loadFrom_setCond]; rfl
  | st sr off9 => exact ⟨_, _, rfl, rfl, .kept rfl⟩
  | str sr baseR off6 => exact ⟨_, _, rfl, rfl, .kept rfl⟩
  | sti sr off9 =>
    refine ⟨_, _, rfl, ?_, .kept (s.afterRead_cond _)⟩
    rw [exec, execSti, State.busRead_setCond]; rfl
  | jsr off11 => exact ⟨_, _, rfl, rfl, .kept rfl⟩
  | jsrr uHi baseR uLo => exact ⟨_, _, rfl, rfl, .kept rfl⟩
  | jmp uHi baseR uLo => exact ⟨_, _, rfl, rfl, .kept rfl⟩
  | ret => exact ⟨_, _, rfl, rfl, .kept rfl⟩
  | nop =>
    refine ⟨s, _, ?_, ?_, .kept rfl⟩
    · rw [exec, execNop, State.branch_never]
    · rw [exec, execNop, State.branch_never]
  | rti u => exact ⟨_, _, rfl, rfl, .kept rfl⟩
  | res x => exact ⟨_, _, rfl, rfl, .kept rfl⟩
  | trap u v =>
    cases hp : serviceOf v with
    | some p => exact ⟨_, _, by rw [exec, execTrap, hp], by rw [exec, execTrap, hp], s.serve_setCond c p⟩
    | none =>
      refine ⟨s.link.raiseTrap (encode (.trap u v)) v, _, ?_, ?_, .kept rfl⟩
      · rw [exec, execTrap, hp]
      · rw [exec, execTrap, hp]; rfl
  | getc => exact ⟨_, _, rfl, rfl, s.serve_setCond c .getc⟩
  | out => exact ⟨_, _, rfl, rfl, s.serve_setCond c .out⟩
  | puts => exact ⟨_, _, rfl, rfl, s.serve_setCond c .puts⟩
  | inEcho => exact ⟨_, _, rfl, rfl, s.serve_setCond c .inEcho⟩
  | putsp => exact ⟨_, _, rfl, rfl, s.serve_setCond c .putsp⟩
  | halt => exact ⟨_, _, rfl, rfl, s.serve_setCond c .halt⟩

/-- Settles O54: the table's rows end in `setcc`, the rest keep the flags, and all but BR are blind to them. -/
theorem condIsReadOnlyByBr : Obligations.CondIsReadOnlyByBr := by
  unfold Obligations.CondIsReadOnlyByBr
  intro i s t h
  refine ⟨fun ⟨hd, hc⟩ => exec_keeps_cond h hd hc, fun dr hd => exec_setcc_destReg h hd, exec_setcc_char h,
    fun hbr c => ?_⟩
  obtain ⟨u, t', hu, ht', hblind⟩ := exec_setCond hbr s c
  obtain rfl : u = t := Host.Outcome.next.inj (hu.symm.trans h)
  exact ⟨t', ht', hblind.same_but_cond⟩

end Sys2Proof.Machine
end

section
/-! PROOFS. The console: a held read that resumes (10_state.md R50), and what a step appends and takes (R44, R61, R62). -/

namespace Sys2Proof.Machine

/-! A held read. -/

/-- With no byte a held core stays as it is. -/
theorem State.resume_held {s : State} {p : Pending} (hp : p = .getc ∨ p = .inEcho) (hpend : s.pending = some p)
    (hc : s.consoleIn = []) : s.resume p = s := by
  have hback : (s.setPending none).setPending (some p) = s := by rw [← hpend]; rfl
  obtain rfl | rfl := hp
  · rw [State.resume, State.readGetc_nil (s := s.setPending none) hc, hback]
  · rw [State.resume, State.readEcho_nil (s := s.setPending none) hc, hback]

/-- With a byte the read ends: for IN the echo, then the byte in R0 with the flags. -/
theorem State.resume_char {s : State} {p : Pending} {b : Byte} {rest : List Byte} (hp : p = .getc ∨ p = .inEcho)
    (hc : s.consoleIn = b :: rest) :
    s.resume p = (({ s with consoleIn := rest, pending := none }).consoleWrite
      (if p = Pending.inEcho then [b] else [])).writeResult 0 (zext b) := by
  obtain rfl | rfl := hp
  · rw [State.resume, State.readGetc_cons (s := s.setPending none) hc]
    simp [State.consoleWrite, State.setPending]
  · rw [State.resume, State.readEcho_cons (s := s.setPending none) hc]; rfl

/-- Settles O41: the step resumes the read, and no fetch and no prompt stands in what it leaves. -/
theorem heldReadResumesWhenAByteArrives : Obligations.HeldReadResumesWhenAByteArrives := by
  unfold Obligations.HeldReadResumesWhenAByteArrives
  intro s hr hpend
  obtain ⟨p, hp, hpend⟩ : ∃ p, (p = .getc ∨ p = .inEcho) ∧ s.pending = some p :=
    hpend.elim (fun h => ⟨_, .inl rfl, h⟩) (fun h => ⟨_, .inr rfl, h⟩)
  have hstep := step_of_pending hr hpend
  cases hc : s.consoleIn with
  | nil => rw [hstep, State.resume_held hp hpend hc]
  | cons b rest =>
    rw [State.resume_char hp hc] at hstep
    refine ⟨_, hstep, rfl, rfl, fun r h0 => ?_, ?_, ?_, rfl, fun _ => rfl, hr, ?_⟩
    · exact State.writeResult_getReg_ne _ _ (List.ne_of_not_mem_cons h0)
    · rw [State.writeResult_getReg_same, zext_toNat]
    · rw [State.writeResult_cond, condOf_zext]
    · simp [hpend]

/-! What a step does to the console. -/

/-- What may be done to the console: bytes appended to the output, and at most the first byte of the input taken. -/
structure ConsoleStep (s t : State) : Prop where
  out : ∃ bs, t.consoleOut = s.consoleOut ++ bs
  input : t.consoleIn = s.consoleIn ∨ t.consoleIn = s.consoleIn.tail

theorem ConsoleStep.after_keeps {s u t : State} (hk : KeepsConsole s u) (h : ConsoleStep u t) : ConsoleStep s t := by
  obtain ⟨hin, hout⟩ := hk
  exact ⟨hout ▸ h.out, hin ▸ h.input⟩

theorem ConsoleStep.then_keeps {s u t : State} (h : ConsoleStep s u) (hk : KeepsConsole u t) : ConsoleStep s t := by
  obtain ⟨hin, hout⟩ := hk
  exact ⟨by rw [hout]; exact h.out, by rw [hin]; exact h.input⟩

/-- A byte taken is the first one; from an empty queue none is. -/
theorem ConsoleStep.input_cons {s t : State} (h : ConsoleStep s t) :
    t.consoleIn = s.consoleIn ∨ ∃ k, s.consoleIn = k :: t.consoleIn := by
  obtain ⟨-, hsame | htail⟩ := h
  · exact .inl hsame
  · cases hc : s.consoleIn with
    | nil => rw [hc] at htail; exact .inl htail
    | cons k rest => rw [hc] at htail; exact .inr ⟨k, by rw [htail, List.tail_cons]⟩

theorem Reads.consoleStep {s u : State} {l : List Word} (h : Reads s l u) : ConsoleStep s u :=
  ⟨⟨[], by rw [h.frame.out, List.append_nil]⟩, h.frame.input⟩

theorem State.fetch_consoleStep (s : State) : ConsoleStep s s.fetch.2 :=
  (Reads.one s.pc).consoleStep.then_keeps ⟨rfl, rfl⟩

theorem State.fetch_keepsConsole {s : State} (h : s.pc ≠ 0xFE00#16 ∨ s.consoleIn = []) : KeepsConsole s s.fetch.2 := by
  refine ⟨?_, s.fetch_consoleOut⟩
  rw [State.fetch_consoleIn]
  obtain hpc | hc := h
  · rw [if_neg hpc]
  · rw [hc, List.tail_nil, ite_self]

/-- One instruction takes at most one byte, LDI's two reads together (42_load_store.md R181). -/
theorem exec_consoleStep {i : Instr} {s t : State} (h : exec i s = .next t) : ConsoleStep s t := by
  have hkeep : ConsoleStep s s := Reads.none.consoleStep
  cases exec_effect h with
  | result dr u v hd hv hl hs hu ht => subst ht; exact hu.consoleStep.then_keeps ⟨rfl, rfl⟩
  | store a v u hd hv hl hs hu ht => subst ht; exact hu.consoleStep.then_keeps ⟨rfl, rfl⟩
  | goto v hd hv hl hs ht => subst ht; exact hkeep.then_keeps ⟨rfl, rfl⟩
  | call v hd hv hl hs ht => subst ht; exact hkeep.then_keeps ⟨rfl, rfl⟩
  | service v p hd hv hl hs hp ht =>
    subst ht
    obtain ⟨hframe, -, hin⟩ := s.serve_frame p
    exact ⟨hframe.out, hin⟩
  | badVector u v hi hp ht => subst ht; exact hkeep.then_keeps ⟨rfl, rfl⟩
  | fatal hd hv hl hs hf ht => subst ht; exact hkeep.then_keeps ⟨rfl, rfl⟩

/-- A fetch that takes a byte reads READY, which is a word of RTI: nothing more is taken (20_memory.md R89). -/
theorem decode_fetch_key {s : State} (hpc : s.pc = 0xFE00#16) (hc : s.consoleIn ≠ []) : decode s.fetch.1 = .rti 0#12 := by
  have hword : s.fetch.1 = 0x8000#16 := by
    rw [State.fetch_word, if_pos hpc, if_neg (by simpa using hc)]
  rw [hword]; decide

theorem step_consoleStep {s t : State} (h : step s = .next t) : ConsoleStep s t := by
  obtain ⟨-, ⟨p, -, rfl⟩ | ⟨-, i, hd, hexec⟩ | ⟨-, -, rfl⟩⟩ := step_next_cases h
  · obtain ⟨hframe, -, hin⟩ := s.resume_frame p
    exact ⟨hframe.out, hin⟩
  · by_cases hquiet : s.pc ≠ 0xFE00#16 ∨ s.consoleIn = []
    · exact (exec_consoleStep hexec).after_keeps (State.fetch_keepsConsole hquiet)
    · obtain ⟨hpc, hc⟩ := not_or.1 hquiet
      obtain rfl : i = .rti 0#12 := (decodeUnder_ok hd).trans (decode_fetch_key (not_not.1 hpc) hc)
      obtain rfl := Host.Outcome.next.inj hexec
      exact s.fetch_consoleStep.then_keeps ⟨rfl, rfl⟩
  · exact s.fetch_consoleStep.then_keeps ⟨rfl, rfl⟩

/-- Settles O56. -/
theorem stepAppendsOutputAndTakesAtMostOneByte : Obligations.StepAppendsOutputAndTakesAtMostOneByte := by
  unfold Obligations.StepAppendsOutputAndTakesAtMostOneByte
  intro s t h
  have hconsole := step_consoleStep h
  exact ⟨hconsole.out, hconsole.input_cons⟩

end Sys2Proof.Machine
end

section
/-! PROOFS. The bus write, the bus read and the keyboard (20_memory.md R74 to R79, R83), and a store before the next fetch
(R88). -/

namespace Sys2Proof.Machine

/-! The bus write. -/

theorem State.busWrite_rawRead_same (s : State) (a v : Word) : (s.busWrite a v).rawRead a = v := by
  rw [State.busWrite_rawRead, if_pos rfl]

/-- Settles O11: a read after the write, and the frame. -/
theorem memWriteStoresOneWord : Obligations.MemWriteStoresOneWord := by
  unfold Obligations.MemWriteStoresOneWord
  intro s a v
  exact ⟨s.busWrite_rawRead a v, s.busWrite_pc a v, s.busWrite_cond a v, fun r _ => s.busWrite_getReg a v r,
    ⟨s.busWrite_consoleIn a v, s.busWrite_consoleOut a v⟩,
    ⟨s.busWrite_run a v, s.busWrite_fault a v, s.busWrite_pending a v, s.busWrite_params a v⟩⟩

/-! The bus read of KBSR, by what waits on the keyboard (R77). -/

theorem State.afterRead_kbsr_rawRead_nil {s : State} (hc : s.consoleIn = []) (b : Word) :
    (s.afterRead 0xFE00#16).rawRead b = if b = 0xFE00#16 then 0x0000#16 else s.rawRead b := by
  rw [State.afterRead_rawRead, if_pos rfl, hc]

theorem State.afterRead_kbsr_rawRead_cons {s : State} {k : Byte} {rest : List Byte} (hc : s.consoleIn = k :: rest)
    (b : Word) :
    (s.afterRead 0xFE00#16).rawRead b
      = if b = 0xFE00#16 then 0x8000#16 else if b = 0xFE02#16 then BitVec.ofNat 16 k.toNat else s.rawRead b := by
  rw [State.afterRead_rawRead, if_pos rfl, hc]

theorem State.busRead_kbsr_value (s : State) :
    (s.busRead 0xFE00#16).1 = if s.consoleIn = [] then 0x0000#16 else 0x8000#16 := by
  rw [State.busRead_value, if_pos rfl]
  simp only [List.isEmpty_iff]

theorem State.afterRead_kbsr_consoleIn (s : State) : (s.afterRead 0xFE00#16).consoleIn = s.consoleIn.tail := by
  rw [State.afterRead_consoleIn, if_pos rfl]

/-! The bus read anywhere else (R83). -/

theorem State.busRead_of_ne (s : State) {a : Word} (ha : a ≠ 0xFE00#16) : s.busRead a = (s.rawRead a, s) := by
  rw [State.busRead, State.afterRead_ne s ha]

theorem State.afterRead_keepsRun (s : State) (a : Word) : KeepsRun s (s.afterRead a) :=
  ⟨s.afterRead_run a, s.afterRead_fault a, s.afterRead_pending a, s.afterRead_params a⟩

/-- Settles O12: the frame, the read without a poll, and the poll with no key and with one. -/
theorem busReadPollsOnlyAtKbsr : Obligations.BusReadPollsOnlyAtKbsr := by
  unfold Obligations.BusReadPollsOnlyAtKbsr
  intro s a
  refine ⟨s.afterRead_pc a, s.afterRead_cond a, fun r _ => s.afterRead_getReg a r, s.afterRead_consoleOut a,
    s.afterRead_keepsRun a, fun ha => ?_, fun ha => ?_⟩
  · rw [s.busRead_of_ne ha]
    exact ⟨rfl, fun _ => rfl, rfl⟩
  · subst ha
    have hvalue := s.busRead_kbsr_value
    have hin := s.afterRead_kbsr_consoleIn
    cases hc : s.consoleIn with
    | nil =>
      rw [hc] at hvalue hin
      exact ⟨hvalue, hin, State.afterRead_kbsr_rawRead_nil hc⟩
    | cons k rest =>
      rw [hc] at hvalue hin
      exact ⟨hvalue, hin, State.afterRead_kbsr_rawRead_cons hc⟩

/-- Settles O13: the read of KBSR gives the poll's value, that of KBDR the word stored, unless a poll has put a key there. -/
theorem storedKbsrIsOverwrittenByThePoll : Obligations.StoredKbsrIsOverwrittenByThePoll := by
  unfold Obligations.StoredKbsrIsOverwrittenByThePoll
  intro s v
  refine ⟨(s.busWrite 0xFE00#16 v).busRead_kbsr_value, ?_, ?_⟩
  · rw [State.busRead_of_ne _ (by decide)]
    exact s.busWrite_rawRead_same _ v
  · rw [State.busRead_of_ne _ (by decide)]
    cases hc : s.consoleIn with
    | nil =>
      exact (State.afterRead_kbsr_rawRead_nil (s := s.busWrite 0xFE02#16 v) hc _).trans (s.busWrite_rawRead_same _ v)
    | cons k rest => exact State.afterRead_kbsr_rawRead_cons (s := s.busWrite 0xFE02#16 v) hc _

/-! A store before the next fetch (R88). -/

/-- The fetch reads the word just stored at `pc`, where no poll replaces it. -/
theorem State.busWrite_fetch_fst {s : State} {a : Word} (v : Word) (ha : a = s.pc) (hpc : s.pc ≠ 0xFE00#16) :
    (s.busWrite a v).fetch.1 = v := by
  subst ha
  rw [State.fetch_word, State.busWrite_pc, if_neg hpc, State.busWrite_rawRead_same]

/-- The instructions that store are ST, STI and STR. -/
theorem storeAddr_ne_none {i : Instr} {s : State} (h : storeAddr i s ≠ none) :
    ∃ (r b : Reg) (o9 : BitVec 9) (o6 : BitVec 6), i = .st r o9 ∨ i = .sti r o9 ∨ i = .str r b o6 := by
  cases i with
  | st r o9 => exact ⟨r, 0, o9, 0#6, .inl rfl⟩
  | sti r o9 => exact ⟨r, 0, o9, 0#6, .inr (.inl rfl)⟩
  | str r b o6 => exact ⟨r, b, 0#9, o6, .inr (.inr rfl)⟩
  | _ => exact (h rfl).elim

/-- Settles O14: each store ends in the bus write at `storeAddr`, of SR, with `pc` still at the next instruction. -/
theorem storeIsSeenByTheNextFetch : Obligations.StoreIsSeenByTheNextFetch := by
  unfold Obligations.StoreIsSeenByTheNextFetch
  intro s sr baseR off9 off6 hpc
  refine ⟨fun h => ⟨_, rfl, ?_⟩, fun h => ⟨_, rfl, ?_⟩, fun h => ⟨_, rfl, ?_⟩, fun i hi => storeAddr_ne_none hi⟩
  · exact State.busWrite_fetch_fst _ (Option.some.inj h) hpc
  · have hkept : (s.busRead (s.pcRel9 off9)).2.pc = s.pc := s.afterRead_pc _
    exact State.busWrite_fetch_fst _ ((Option.some.inj h).trans hkept.symm) (by rwa [hkept])
  · exact State.busWrite_fetch_fst _ (Option.some.inj h) hpc

end Sys2Proof.Machine
end

section
/-! PROOFS. A step at KBSR (20_memory.md R89), and who writes memory (R71, R77, R78, R84, R86). -/

namespace Sys2Proof.Machine

/-! A step at KBSR: the fetch polls, and the word it reads is NOP's or RTI's. -/

theorem State.fetch_word_kbsr {s : State} (hpc : s.pc = 0xFE00#16) :
    s.fetch.1 = if s.consoleIn = [] then 0x0000#16 else 0x8000#16 := by
  rw [State.fetch_fst, hpc, State.busRead_kbsr_value]

/-- With no key the word is NOP's, and the step is the fetch alone. -/
theorem step_at_kbsr_nil {s : State} (hr : s.run = .running) (hp : s.pending = none) (hpc : s.pc = 0xFE00#16)
    (hc : s.consoleIn = []) : step s = .next s.fetch.2 := by
  have hdecode : ∀ policy, decodeUnder policy 0x0000#16 = .ok .nop := by intro policy; cases policy <;> decide
  rw [step_of_decoded hr hp (i := .nop) (by rw [State.fetch_word_kbsr hpc, if_pos hc, hdecode]), exec, execNop,
    State.branch_never]

/-- With a key the word is READY, a word of RTI: FatalDecodeError. -/
theorem step_at_kbsr_key {s : State} (hr : s.run = .running) (hp : s.pending = none) (hpc : s.pc = 0xFE00#16)
    (hc : s.consoleIn ≠ []) : step s = .next (s.fetch.2.raiseDecode 0x8000#16) := by
  have hdecode : ∀ policy, decodeUnder policy 0x8000#16 = .ok (.rti 0#12) := by intro policy; cases policy <;> decide
  rw [step_of_decoded hr hp (i := .rti 0#12) (by rw [State.fetch_word_kbsr hpc, if_neg hc, hdecode])]
  rfl

/-- Settles O9: NOP or RTI in the state the fetch leaves, whose memory is the poll's. -/
theorem stepAtKbsrPollsThenExecutes : Obligations.StepAtKbsrPollsThenExecutes := by
  unfold Obligations.StepAtKbsrPollsThenExecutes
  intro s hr hp hpc
  have hnext : s.fetch.2.pc = 0xFE01#16 := by rw [State.fetch_pc, hpc]; rfl
  have hin : s.fetch.2.consoleIn = s.consoleIn.tail := by rw [State.fetch_consoleIn, if_pos hpc]
  have hmem : ∀ a, s.fetch.2.rawRead a = (s.afterRead 0xFE00#16).rawRead a := fun a => by
    rw [State.fetch_snd, State.setPc_rawRead, hpc]
  cases hc : s.consoleIn with
  | nil =>
    rw [hc] at hin
    exact ⟨_, step_at_kbsr_nil hr hp hpc hc, hnext, s.fetch_cond, fun r _ => s.fetch_getReg r, s.fetch_consoleOut,
      s.fetch_run.trans hr, hin, fun a => (hmem a).trans (State.afterRead_kbsr_rawRead_nil hc a)⟩
  | cons k rest =>
    rw [hc] at hin
    have hfault : (s.fetch.2.raiseDecode 0x8000#16).fault = some ⟨.decode, 0x8000#16, 0xFE00#16, 0x00#8⟩ := by
      rw [State.raiseDecode, State.raiseFatal_fault, hnext]; rfl
    exact ⟨_, step_at_kbsr_key hr hp hpc (by simp [hc]), hnext, s.fetch_cond, fun r _ => s.fetch_getReg r,
      s.fetch_consoleOut, rfl, hfault, hin, fun a => (hmem a).trans (State.afterRead_kbsr_rawRead_cons hc a)⟩

/-! Who writes memory. -/

/-- `PolledWord` looks at nothing but the input queues and the word itself. -/
theorem PolledWord.congr {s s' t t' : State} {a : Word} (h : PolledWord s t a) (hs : s'.consoleIn = s.consoleIn)
    (ht : t'.consoleIn = t.consoleIn) (hword : t'.rawRead a = t.rawRead a) : PolledWord s' t' a := by
  rw [PolledWord, hs, ht, hword]
  exact h

/-- A word that the fetch changed was polled, and the fetch was at KBSR. -/
theorem State.fetch_polled {s : State} {a : Word} (h : s.fetch.2.rawRead a ≠ s.rawRead a) :
    s.pc = 0xFE00#16 ∧ PolledWord s s.fetch.2 a :=
  State.afterRead_polled h

/-- A word that an instruction changed is the one it stores, or was polled by its own reads. -/
theorem exec_changed_word {i : Instr} {s t : State} {a : Word} (h : exec i s = .next t)
    (ha : t.rawRead a ≠ s.rawRead a) : storeAddr i s = some a ∨ (0xFE00#16 ∈ readAddrs i s ∧ PolledWord s t a) := by
  cases exec_effect h with
  | result dr u v hd hv hl hs hu ht => subst ht; exact .inr (hu.polled ha)
  | store b v u hd hv hl hs hu ht =>
    subst ht
    by_cases hb : a = b
    · exact .inl (hb ▸ hs)
    · have hword : (u.busWrite b v).rawRead a = u.rawRead a := by rw [State.busWrite_rawRead, if_neg hb]
      obtain ⟨hmem, hpolled⟩ := hu.polled (hword ▸ ha)
      exact .inr ⟨hmem, hpolled.congr rfl rfl hword⟩
  | goto v hd hv hl hs ht => subst ht; exact (ha rfl).elim
  | call v hd hv hl hs ht => subst ht; exact (ha rfl).elim
  | service v p hd hv hl hs hp ht =>
    subst ht
    obtain ⟨hframe, -⟩ := s.serve_frame p
    exact (ha (by rw [State.rawRead, hframe.mem]; rfl)).elim
  | badVector u v hi hp ht => subst ht; exact (ha rfl).elim
  | fatal hd hv hl hs hf ht => subst ht; exact (ha rfl).elim

/-- At KBSR the fetch's poll is all that a step does to memory. -/
theorem step_at_kbsr_polled {s t : State} {a : Word} (hr : s.run = .running) (hp : s.pending = none)
    (hpc : s.pc = 0xFE00#16) (h : step s = .next t) (ha : t.rawRead a ≠ s.rawRead a) : PolledWord s t a := by
  by_cases hc : s.consoleIn = []
  · obtain rfl := Host.Outcome.next.inj ((step_at_kbsr_nil hr hp hpc hc).symm.trans h)
    exact (State.fetch_polled ha).2
  · obtain rfl := Host.Outcome.next.inj ((step_at_kbsr_key hr hp hpc hc).symm.trans h)
    exact (State.fetch_polled ha).2.congr rfl rfl rfl

/-- Settles O55: at KBSR by the fetch's poll; elsewhere the fetch keeps memory, and the instruction stores or polls. -/
theorem memoryIsWrittenOnlyByStoresAndThePoll : Obligations.MemoryIsWrittenOnlyByStoresAndThePoll := by
  unfold Obligations.MemoryIsWrittenOnlyByStoresAndThePoll
  intro s t a h ha
  obtain ⟨hr, ⟨p, -, rfl⟩ | ⟨hp, i, hd, hexec⟩ | ⟨hp, -, rfl⟩⟩ := step_next_cases h
  · obtain ⟨hframe, -⟩ := s.resume_frame p
    exact (ha (by rw [State.rawRead, hframe.mem]; rfl)).elim
  · refine ⟨hp, ?_⟩
    by_cases hpc : s.pc = 0xFE00#16
    · exact .inr ⟨step_at_kbsr_polled hr hp hpc h ha, .inl hpc⟩
    · rw [← s.fetch_rawRead_of_ne hpc] at ha
      obtain hstore | ⟨hread, hpolled⟩ := exec_changed_word hexec ha
      · exact .inl ⟨i, hd, hstore⟩
      · have hin : s.consoleIn = s.fetch.2.consoleIn := by rw [State.fetch_consoleIn, if_neg hpc]
        exact .inr ⟨hpolled.congr hin rfl rfl, .inr ⟨i, hd, hread⟩⟩
  · obtain ⟨hpc, -⟩ := State.fetch_polled (s := s) ha
    exact ⟨hp, .inr ⟨step_at_kbsr_polled hr hp hpc h ha, .inl hpc⟩⟩

end Sys2Proof.Machine
end

section
/-! PROOFS. The invariant at reset and after a launch (20_memory.md R70, R72; 10_state.md R41). -/

namespace Sys2Proof.Machine

/-! Loading keeps memory in its canonical form. -/

theorem placeWords_wf (ws : List Word) (a : Nat) {m : Memory} (h : Memory.wf m) : Memory.wf (placeWords a ws m) := by
  induction ws generalizing a m with
  | nil => exact h
  | cons w ws ih =>
    rw [placeWords]
    split
    · exact ih _ (Memory.write_wf w ‹_› h)
    · exact ih _ h

theorem loadImage_wf {m m' : Memory} {image : List Byte} (h : Memory.wf m) (hl : loadImage m image = some m') :
    Memory.wf m' := by
  unfold loadImage at hl
  split at hl
  · cases hl
  · cases hl; exact placeWords_wf _ _ h

theorem loadImages_wf {images : List (List Byte)} {m m' : Memory} (h : Memory.wf m)
    (hl : loadImages m images = some m') : Memory.wf m' := by
  induction images generalizing m with
  | nil => cases hl; exact h
  | cons image images ih =>
    rw [loadImages] at hl
    split at hl
    · exact ih (loadImage_wf h ‹_›) hl
    · cases hl

/-- A launch's memory is the images' over reset's (70_reset_and_hazards.md R290). -/
theorem State.launch_mem {images : List (List Byte)} {s : State} (h : State.launch images = some s) :
    loadImages State.reset.mem images = some s.mem := by
  unfold State.launch at h
  split at h
  · cases h
  · split at h
    · cases h; assumption
    · cases h

theorem State.reset_wf : Memory.wf State.reset.mem := ⟨List.Pairwise.nil, fun _ hc => (List.not_mem_nil hc).elim⟩

/-- Reset over any memory in the canonical form meets the invariant: RUNNING, no fault, no service. -/
theorem State.reset_over_inv {m : Memory} (h : Memory.wf m) : ({ State.reset with mem := m } : State).Inv :=
  State.inv_of_boundary h rfl rfl

/-- Settles O48: a launch is reset over the memory the images leave, which the loading keeps canonical. -/
theorem resetAndLaunchMeetTheInvariant : Obligations.ResetAndLaunchMeetTheInvariant := by
  unfold Obligations.ResetAndLaunchMeetTheInvariant
  refine ⟨State.reset_over_inv State.reset_wf, fun images s h => ?_⟩
  rw [State.launch_eq h]
  exact State.reset_over_inv (loadImages_wf State.reset_wf (State.launch_mem h))

end Sys2Proof.Machine
end

section
/-! PROOFS. The decoder and the encoder are inverse to each other (30_encoding.md R102, R113, R122). -/

namespace Sys2Proof.Machine

/-! A word is the concatenation of its fields, for each of the eight ways a word is cut (R102). The lemmas are named after the
widths of the fields below the opcode. -/

theorem ofBool_eq_extractLsb'_iff {w : Word} {k : Nat} {c : Bool} :
    BitVec.ofBool c = w.extractLsb' k 1 ↔ c = w.getLsbD k := by
  have hbit : w.extractLsb' k 1 = BitVec.ofBool (w.getLsbD k) := by
    refine BitVec.eq_of_getLsbD_eq fun j hj => ?_
    obtain rfl : j = 0 := by omega
    simp
  rw [hbit, BitVec.ofBool_eq_iff_eq]

/-- Two neighbouring fields of a word are the two parts of the field they make up. -/
theorem append_eq_extractLsb'_iff {w : Word} {lo m n : Nat} {x : BitVec m} {y : BitVec n} :
    x ++ y = w.extractLsb' lo (m + n) ↔ x = w.extractLsb' (lo + n) m ∧ y = w.extractLsb' lo n := by
  rw [← BitVec.extractLsb'_append_extractLsb'_eq_extractLsb' (start₂ := lo + n) rfl]
  constructor
  · intro h
    have hx := congrArg (BitVec.extractLsb' n m) h
    have hy := congrArg (BitVec.extractLsb' 0 n) h
    rw [BitVec.extractLsb'_append_eq_left, BitVec.extractLsb'_append_eq_left] at hx
    rw [BitVec.extractLsb'_append_eq_right, BitVec.extractLsb'_append_eq_right] at hy
    exact ⟨hx, hy⟩
  · rintro ⟨rfl, rfl⟩
    rfl

theorem eq_iff_eq_extractLsb' {v w : Word} : v = w ↔ v = w.extractLsb' 0 16 := by
  rw [BitVec.extractLsb'_eq_self]

section Formats
variable {w : Word} {o : BitVec 4}

theorem fields_12_iff {x : BitVec 12} : o ++ x = w ↔ o = opcodeOf w ∧ x = w.extractLsb' 0 12 := by
  rw [eq_iff_eq_extractLsb', append_eq_extractLsb'_iff]; rfl

theorem fields_3_9_iff {a : BitVec 3} {b : BitVec 9} :
    o ++ a ++ b = w ↔ o = opcodeOf w ∧ a = w.extractLsb' 9 3 ∧ b = w.extractLsb' 0 9 := by
  rw [eq_iff_eq_extractLsb', append_eq_extractLsb'_iff, append_eq_extractLsb'_iff, and_assoc]; rfl

theorem fields_4_8_iff {a : BitVec 4} {b : BitVec 8} :
    o ++ a ++ b = w ↔ o = opcodeOf w ∧ a = w.extractLsb' 8 4 ∧ b = w.extractLsb' 0 8 := by
  rw [eq_iff_eq_extractLsb', append_eq_extractLsb'_iff, append_eq_extractLsb'_iff, and_assoc]; rfl

theorem fields_3_3_6_iff {a b : BitVec 3} {c : BitVec 6} :
    o ++ a ++ b ++ c = w
      ↔ o = opcodeOf w ∧ a = w.extractLsb' 9 3 ∧ b = w.extractLsb' 6 3 ∧ c = w.extractLsb' 0 6 := by
  rw [eq_iff_eq_extractLsb', append_eq_extractLsb'_iff, append_eq_extractLsb'_iff, append_eq_extractLsb'_iff, and_assoc,
    and_assoc]; rfl

theorem fields_1_11_iff {s : Bool} {a : BitVec 11} :
    o ++ BitVec.ofBool s ++ a = w ↔ o = opcodeOf w ∧ s = w.getLsbD 11 ∧ a = w.extractLsb' 0 11 := by
  rw [eq_iff_eq_extractLsb', append_eq_extractLsb'_iff, append_eq_extractLsb'_iff, ofBool_eq_extractLsb'_iff,
    and_assoc]; rfl

theorem fields_1_2_3_6_iff {s : Bool} {a : BitVec 2} {b : BitVec 3} {c : BitVec 6} :
    o ++ BitVec.ofBool s ++ a ++ b ++ c = w
      ↔ o = opcodeOf w ∧ s = w.getLsbD 11 ∧ a = w.extractLsb' 9 2 ∧ b = w.extractLsb' 6 3 ∧ c = w.extractLsb' 0 6 := by
  rw [eq_iff_eq_extractLsb', append_eq_extractLsb'_iff, append_eq_extractLsb'_iff, append_eq_extractLsb'_iff,
    append_eq_extractLsb'_iff, ofBool_eq_extractLsb'_iff, and_assoc, and_assoc, and_assoc]; rfl

theorem fields_3_3_1_5_iff {a b : BitVec 3} {s : Bool} {c : BitVec 5} :
    o ++ a ++ b ++ BitVec.ofBool s ++ c = w
      ↔ o = opcodeOf w ∧ a = w.extractLsb' 9 3 ∧ b = w.extractLsb' 6 3 ∧ s = w.getLsbD 5 ∧ c = w.extractLsb' 0 5 := by
  rw [eq_iff_eq_extractLsb', append_eq_extractLsb'_iff, append_eq_extractLsb'_iff, append_eq_extractLsb'_iff,
    append_eq_extractLsb'_iff, ofBool_eq_extractLsb'_iff, and_assoc, and_assoc, and_assoc]; rfl

theorem fields_3_3_1_2_3_iff {a b : BitVec 3} {s : Bool} {c : BitVec 2} {d : BitVec 3} :
    o ++ a ++ b ++ BitVec.ofBool s ++ c ++ d = w
      ↔ o = opcodeOf w ∧ a = w.extractLsb' 9 3 ∧ b = w.extractLsb' 6 3 ∧ s = w.getLsbD 5 ∧ c = w.extractLsb' 3 2
        ∧ d = w.extractLsb' 0 3 := by
  rw [eq_iff_eq_extractLsb', append_eq_extractLsb'_iff, append_eq_extractLsb'_iff, append_eq_extractLsb'_iff,
    append_eq_extractLsb'_iff, append_eq_extractLsb'_iff, ofBool_eq_extractLsb'_iff, and_assoc, and_assoc, and_assoc,
    and_assoc]; rfl

end Formats

/-! Decoding the word of an instruction. -/

/-- The four bits the decoder tests first are the opcode's. -/
theorem opcode_bits (w : Word) : w.getLsbD 15 = (opcodeOf w).getLsbD 3 ∧ w.getLsbD 14 = (opcodeOf w).getLsbD 2
    ∧ w.getLsbD 13 = (opcodeOf w).getLsbD 1 ∧ w.getLsbD 12 = (opcodeOf w).getLsbD 0 := by
  simp [opcodeOf]

/-- Well-formedness is what rules the services' own words out. -/
theorem decodeTrap_of_wellFormed {w : Word}
    (h : (Instr.trap (w.extractLsb' 8 4) (w.extractLsb' 0 8)).wellFormed = true) :
    decodeTrap w = .trap (w.extractLsb' 8 4) (w.extractLsb' 0 8) := by
  unfold decodeTrap
  split_ifs with h0 h1 h2 h3 h4 h5
  case neg => rfl
  all_goals
    subst w
    exact absurd h (by decide)

/-- The opcode picks the decoder's row; there every field of the word is the operand that was put into it, and a row whose
word has a name of its own (RET, NOP, a service) reads it by that name only, which well-formedness rules out. -/
theorem decode_of_encode {i : Instr} {w : Word} (hwf : i.wellFormed = true) (h : encode i = w) : decode w = i := by
  cases i with
  | br nzp off9 =>
    obtain ⟨hop, rfl, rfl⟩ := fields_3_9_iff.1 h
    have hnop : w ≠ 0x0000#16 := by rintro rfl; exact absurd hwf (by decide)
    simp only [decode, opcode_bits, ← hop, hnop, if_false]; rfl
  | jmp uHi baseR uLo =>
    obtain ⟨hop, rfl, hbase, rfl⟩ := fields_3_3_6_iff.1 h
    obtain rfl := regAt_eq hbase.symm
    have hret : w ≠ 0xC1C0#16 := by rintro rfl; exact absurd hwf (by decide)
    simp only [decode, opcode_bits, ← hop, hret, if_false]; rfl
  | trap u vect8 =>
    obtain ⟨hop, rfl, rfl⟩ := fields_4_8_iff.1 h
    simp only [decode, opcode_bits, ← hop]
    exact decodeTrap_of_wellFormed hwf
  | ld r off9 | st r off9 | ldi r off9 | sti r off9 | lea r off9 =>
    obtain ⟨hop, hr, rfl⟩ := fields_3_9_iff.1 h
    obtain rfl := regAt_eq hr.symm
    simp only [decode, opcode_bits, ← hop]; rfl
  | ldr r baseR off6 | str r baseR off6 | not r baseR off6 =>
    obtain ⟨hop, hr, hbase, rfl⟩ := fields_3_3_6_iff.1 h
    obtain rfl := regAt_eq hr.symm
    obtain rfl := regAt_eq hbase.symm
    simp only [decode, opcode_bits, ← hop]; rfl
  | addReg dr sr1 u sr2 | andReg dr sr1 u sr2 =>
    obtain ⟨hop, hdr, hsr1, hmode, rfl, hsr2⟩ := (fields_3_3_1_2_3_iff (s := false)).1 h
    obtain rfl := regAt_eq hdr.symm
    obtain rfl := regAt_eq hsr1.symm
    obtain rfl := regAt_eq hsr2.symm
    simp only [decode, opcode_bits, ← hop, ← hmode]; rfl
  | addImm dr sr1 imm5 | andImm dr sr1 imm5 =>
    obtain ⟨hop, hdr, hsr1, hmode, rfl⟩ := (fields_3_3_1_5_iff (s := true)).1 h
    obtain rfl := regAt_eq hdr.symm
    obtain rfl := regAt_eq hsr1.symm
    simp only [decode, opcode_bits, ← hop, ← hmode]; rfl
  | jsr off11 =>
    obtain ⟨hop, hmode, rfl⟩ := (fields_1_11_iff (s := true)).1 h
    simp only [decode, opcode_bits, ← hop, ← hmode]; rfl
  | jsrr uHi baseR uLo =>
    obtain ⟨hop, hmode, rfl, hbase, rfl⟩ := (fields_1_2_3_6_iff (s := false)).1 h
    obtain rfl := regAt_eq hbase.symm
    simp only [decode, opcode_bits, ← hop, ← hmode]; rfl
  | rti x | res x =>
    obtain ⟨hop, rfl⟩ := fields_12_iff.1 h
    simp only [decode, opcode_bits, ← hop]; rfl
  | ret | nop | getc | out | puts | inEcho | putsp | halt => subst h; rfl

/-- Settles O1: the fields of the encoded word are the operands, and well-formedness rules out the words of RET, NOP and the
services. -/
theorem decodeOfEncodeIsIdentity : Obligations.DecodeOfEncodeIsIdentity := by
  unfold Obligations.DecodeOfEncodeIsIdentity
  exact fun i hwf => decode_of_encode hwf rfl

/-! Encoding the instruction a word decodes to. -/

theorem encode_decodeTrap {w : Word} (hop : 0xF#4 = opcodeOf w) : encode (decodeTrap w) = w := by
  unfold decodeTrap
  split_ifs with h0 h1 h2 h3 h4 h5
  case neg => exact fields_4_8_iff.2 ⟨hop, rfl, rfl⟩
  all_goals
    subst w
    rfl

theorem encode_decode (w : Word) : encode (decode w) = w := by
  have hop := (opcodeOf_eq_bits w).symm
  unfold decode
  split <;> simp only [*] at hop
  case h_1 => -- BR, NOP
    split
    · exact Eq.symm ‹_›
    · exact fields_3_9_iff.2 ⟨hop, rfl, rfl⟩
  case h_2 | h_6 => -- ADD, AND
    split
    · exact (fields_3_3_1_5_iff (s := true)).2 ⟨hop, rfl, rfl, Eq.symm ‹_›, rfl⟩
    · exact (fields_3_3_1_2_3_iff (s := false)).2 ⟨hop, rfl, rfl, (Bool.eq_false_of_not_eq_true ‹_›).symm, rfl, rfl⟩
  case h_3 | h_4 | h_11 | h_12 | h_15 => exact fields_3_9_iff.2 ⟨hop, rfl, rfl⟩ -- LD, ST, LDI, STI, LEA
  case h_5 => -- JSR, JSRR
    split
    · exact (fields_1_11_iff (s := true)).2 ⟨hop, Eq.symm ‹_›, rfl⟩
    · exact (fields_1_2_3_6_iff (s := false)).2 ⟨hop, (Bool.eq_false_of_not_eq_true ‹_›).symm, rfl, rfl, rfl⟩
  case h_7 | h_8 | h_10 => exact fields_3_3_6_iff.2 ⟨hop, rfl, rfl, rfl⟩ -- LDR, STR, NOT
  case h_9 | h_14 => exact fields_12_iff.2 ⟨hop, rfl⟩ -- RTI, RES
  case h_13 => -- JMP, RET
    split
    · exact Eq.symm ‹_›
    · exact fields_3_3_6_iff.2 ⟨hop, rfl, rfl, rfl⟩
  case h_16 => exact encode_decodeTrap hop -- TRAP

/-- An instruction that is not well-formed is read back as RET, NOP or the service that names its word. -/
theorem decode_encode_ne {i : Instr} (h : i.wellFormed = false) : decode (encode i) ≠ i := by
  cases i with
  | br nzp off9 =>
    simp only [Instr.wellFormed, Bool.not_eq_false', Bool.and_eq_true, beq_iff_eq] at h
    obtain ⟨rfl, rfl⟩ := h
    decide
  | jmp uHi baseR uLo =>
    simp only [Instr.wellFormed, Bool.not_eq_false', Bool.and_eq_true, beq_iff_eq] at h
    obtain ⟨⟨rfl, rfl⟩, rfl⟩ := h
    decide
  | trap u vect8 =>
    simp only [Instr.wellFormed, Bool.not_eq_false', Bool.and_eq_true, Bool.or_eq_true, beq_iff_eq] at h
    obtain ⟨rfl, ((((rfl | rfl) | rfl) | rfl) | rfl) | rfl⟩ := h <;> decide
  | _ => cases h

theorem decode_wellFormed (w : Word) : (decode w).wellFormed = true := by
  cases hwf : (decode w).wellFormed with
  | true => rfl
  | false => exact absurd (congrArg decode (encode_decode w)) (decode_encode_ne hwf)

/-- Settles O2: the decoder cuts out every field, and never answers an instruction whose word it reads as another's. -/
theorem encodeOfDecodeIsIdentity : Obligations.EncodeOfDecodeIsIdentity := by
  unfold Obligations.EncodeOfDecodeIsIdentity
  exact fun w => ⟨decode_wellFormed w, encode_decode w⟩

end Sys2Proof.Machine
end

section
/-! PROOFS. UNUSED_BITS_POLICY at decode (30_encoding.md R115), and the words that execute alike (R115, R122). -/

namespace Sys2Proof.Machine

/-! The policy. -/

theorem decodeUnder_ignore (w : Word) : decodeUnder .ignore w = .ok (decode w) := by
  unfold decodeUnder
  split <;> rfl

theorem decodeUnder_fatal_of_not_unusedBitSet {w : Word} (h : unusedBitSet w = false) :
    decodeUnder .fatal w = .ok (decode w) := by
  cases hd : decodeUnder .fatal w with
  | ok i => rw [decodeUnder_ok hd]
  | error e =>
    obtain ⟨-, hop, hcanon, -⟩ := decodeUnder_error hd
    rw [unusedBitSet_eq, hop, hcanon] at h
    cases h

/-- Settles O4: `ignore` never rejects, and `fatal` rejects a word exactly when `unusedBitSet` finds it not canonical. -/
theorem unusedBitsAreCheckedOnlyWhenFatal : Obligations.UnusedBitsAreCheckedOnlyWhenFatal := by
  unfold Obligations.UnusedBitsAreCheckedOnlyWhenFatal
  intro w
  refine ⟨decodeUnder_ignore w, ?_⟩
  split
  · exact decodeUnder_fatal_of_unusedBitSet ‹_›
  · exact decodeUnder_fatal_of_not_unusedBitSet (Bool.eq_false_of_not_eq_true ‹_›)

/-! Execution does not look at the unused bits, and RET, NOP and the services run as their core instructions. -/

theorem exec_trap_of_service (u : BitVec 4) {v : BitVec 8} {p : Service} (h : serviceOf v = some p) (s : State) :
    exec (.trap u v) s = .next (s.link.serve p) := by
  rw [exec, execTrap, h]

theorem exec_br_never (off9 : BitVec 9) (s : State) : exec (.br 0b000#3 off9) s = exec .nop s := by
  rw [exec, execBr, State.branch_never, exec, execNop, State.branch_never]

/-- Settles O5: the meanings do not use the unused fields, and a TRAP is dispatched on its vector alone. -/
theorem unusedBitsAndAliasesDoNotChangeExecution : Obligations.UnusedBitsAndAliasesDoNotChangeExecution := by
  unfold Obligations.UnusedBitsAndAliasesDoNotChangeExecution
  intro s dr sr1 sr2 u2 u3 u4 u6 off9
  have htrap {p : Service} {v : BitVec 8} (h : serviceOf v = some p) := exec_trap_of_service u4 h s
  exact ⟨rfl, rfl, rfl, rfl, rfl, rfl, exec_br_never off9 s, htrap (p := .getc) rfl, htrap (p := .out) rfl,
    htrap (p := .puts) rfl, htrap (p := .inEcho) rfl, htrap (p := .putsp) rfl, htrap (p := .halt) rfl⟩

end Sys2Proof.Machine
end

section
/-! PROOFS. ADD, AND and NOT (40_operate.md): each ends in one `writeResult` and touches nothing else. -/

namespace Sys2Proof.Machine

/-! The shared end of the operate instructions: DR, the flags from it, and the frame (10_state.md R31). -/

theorem State.writeResult_writesResult (s : State) (dr : Reg) (v : Word) : WritesResult s (s.writeResult dr v) dr v :=
  ⟨s.writeResult_getReg_same dr v, (s.writeResult_cond dr v).trans (condOf_eq v),
    fun _ hr => s.writeResult_getReg_ne v (List.ne_of_not_mem_cons hr)⟩

theorem State.writeResult_keepsMem (s : State) (dr : Reg) (v : Word) : KeepsMem s (s.writeResult dr v) :=
  s.writeResult_rawRead dr v

theorem State.writeResult_keepsConsole (s : State) (dr : Reg) (v : Word) : KeepsConsole s (s.writeResult dr v) :=
  ⟨s.writeResult_consoleIn dr v, s.writeResult_consoleOut dr v⟩

theorem State.writeResult_keepsRun (s : State) (dr : Reg) (v : Word) : KeepsRun s (s.writeResult dr v) :=
  ⟨s.writeResult_run dr v, s.writeResult_fault dr v, s.writeResult_pending dr v, s.writeResult_params dr v⟩

/-- The whole effect of the write that ends an instruction with a destination. -/
theorem State.writeResult_effect (s : State) (dr : Reg) (v : Word) :
    WritesResult s (s.writeResult dr v) dr v ∧ (s.writeResult dr v).pc = s.pc ∧ KeepsMem s (s.writeResult dr v)
      ∧ KeepsConsole s (s.writeResult dr v) ∧ KeepsRun s (s.writeResult dr v) :=
  ⟨s.writeResult_writesResult dr v, s.writeResult_pc dr v, s.writeResult_keepsMem dr v, s.writeResult_keepsConsole dr v,
    s.writeResult_keepsRun dr v⟩

/-! What each instruction writes. -/

section Exec
variable (dr sr1 sr2 : Reg) (imm5 : BitVec 5) (s : State)

theorem exec_addReg (u : BitVec 2) :
    exec (.addReg dr sr1 u sr2) s = .next (s.writeResult dr (s.getReg sr1 + s.getReg sr2)) := rfl

theorem exec_addImm : exec (.addImm dr sr1 imm5) s = .next (s.writeResult dr (s.getReg sr1 + sext imm5)) := rfl

theorem exec_andReg (u : BitVec 2) :
    exec (.andReg dr sr1 u sr2) s = .next (s.writeResult dr (s.getReg sr1 &&& s.getReg sr2)) := rfl

theorem exec_andImm : exec (.andImm dr sr1 imm5) s = .next (s.writeResult dr (s.getReg sr1 &&& sext imm5)) := rfl

theorem exec_not (u : BitVec 6) : exec (.not dr sr1 u) s = .next (s.writeResult dr (~~~(s.getReg sr1))) := rfl

end Exec

/-! ADD. -/

/-- Settles O17: the sum of words is the sum of their numbers, cut to 16 bits. -/
theorem addRegisterWritesTheSum : Obligations.AddRegisterWritesTheSum := by
  unfold Obligations.AddRegisterWritesTheSum
  intro dr sr1 sr2 u s
  rw [← BitVec.add_def]
  exact ⟨_, exec_addReg dr sr1 sr2 s u, s.writeResult_effect dr _⟩

/-- The word of an instruction without a non-canonical unused bit decodes to it under either policy. -/
theorem decodeUnder_encode {i : Instr} (hwf : i.wellFormed = true) (hcanon : i.canonical = true)
    (policy : UnusedBitsPolicy) : decodeUnder policy (encode i) = .ok i := by
  have hdecode : decode (encode i) = i := decode_of_encode hwf rfl
  cases hd : decodeUnder policy (encode i) with
  | ok j => rw [decodeUnder_ok hd, hdecode]
  | error e =>
    obtain ⟨-, -, hnot, -⟩ := decodeUnder_error hd
    rw [hdecode, hcanon] at hnot
    cases hnot

/-- Settles O18: the words are `encode`'s, which leaves ADD immediate no unused bit; the sum is as in register mode. -/
theorem addImmediateWritesTheSum : Obligations.AddImmediateWritesTheSum := by
  unfold Obligations.AddImmediateWritesTheSum
  intro dr sr1 imm5 s
  refine ⟨decodeUnder_encode (i := .addImm dr sr1 imm5) rfl rfl, ?_⟩
  rw [← BitVec.add_def]
  exact ⟨_, exec_addImm dr sr1 imm5 s, s.writeResult_effect dr _⟩

/-! AND. -/

/-- Settles O19. -/
theorem andRegisterWritesTheConjunction : Obligations.AndRegisterWritesTheConjunction := by
  unfold Obligations.AndRegisterWritesTheConjunction
  intro dr sr1 sr2 u s
  exact ⟨_, _, exec_andReg dr sr1 sr2 s u, fun _ _ => BitVec.getLsbD_and, s.writeResult_effect dr _⟩

/-- Settles O20: each bit of the immediate's extension is its own bit or a copy of bit 4. -/
theorem andImmediateWritesTheConjunction : Obligations.AndImmediateWritesTheConjunction := by
  unfold Obligations.AndImmediateWritesTheConjunction
  intro dr sr1 imm5 s
  refine ⟨_, _, exec_andImm dr sr1 imm5 s, fun k hk => ?_, s.writeResult_effect dr _⟩
  rw [BitVec.getLsbD_and, sext_getLsbD, decide_eq_true hk, Bool.true_and]

/-! NOT. -/

/-- The complement of a word, as a number (40_operate.md R145). -/
theorem Word.not_eq_ofNat (a : Word) : ~~~a = BitVec.ofNat 16 (0xFFFF - a.toNat) := by
  refine BitVec.eq_of_toNat_eq ?_
  rw [BitVec.toNat_not, BitVec.toNat_ofNat]
  omega

/-- Settles O21. -/
theorem notWritesTheComplement : Obligations.NotWritesTheComplement := by
  unfold Obligations.NotWritesTheComplement
  intro dr sr u s
  rw [← Word.not_eq_ofNat]
  exact ⟨_, exec_not dr sr s u, s.writeResult_effect dr _⟩

end Sys2Proof.Machine
end

section
/-! PROOFS. BR, NOP, JMP, RET, JSR and JSRR (41_control.md): each ends in one write of `pc`, the calls after the link. -/

namespace Sys2Proof.Machine

section Control
variable (s : State)

/-! The two ends of a control transfer, and the frame each leaves. -/

theorem State.setPc_self : s.setPc s.pc = s := rfl

/-- A write of `pc` leaves everything else, the registers included (10_state.md R31). -/
theorem State.setPc_frame (v : Word) :
    (s.setPc v).cond = s.cond ∧ KeepsRegs s (s.setPc v) [] ∧ KeepsMem s (s.setPc v) ∧ KeepsConsole s (s.setPc v)
      ∧ KeepsRun s (s.setPc v) :=
  ⟨s.setPc_cond v, fun r _ => s.setPc_getReg v r, s.setPc_rawRead v, ⟨s.setPc_consoleIn v, s.setPc_consoleOut v⟩,
    s.setPc_run v, s.setPc_fault v, s.setPc_pending v, s.setPc_params v⟩

/-- The whole effect of a call: R7 holds the return address, `pc` the target, and the rest is kept (41_control.md R165). -/
theorem State.link_setPc_effect (v : Word) :
    (s.link.setPc v).getReg 7 = s.pc ∧ (s.link.setPc v).pc = v ∧ (s.link.setPc v).cond = s.cond
      ∧ KeepsRegs s (s.link.setPc v) [7] ∧ KeepsMem s (s.link.setPc v) ∧ KeepsConsole s (s.link.setPc v)
      ∧ KeepsRun s (s.link.setPc v) := by
  obtain ⟨hcond, hregs, hmem, hconsole, hrun⟩ := s.link.setPc_frame v
  refine ⟨?_, s.link.setPc_pc v, hcond, fun r hr => ?_, hmem, hconsole, hrun⟩
  · rw [State.setPc_getReg, State.link_getReg_seven]
  · rw [State.setPc_getReg, State.link_getReg, if_neg (List.ne_of_not_mem_cons hr)]

/-! What each instruction writes. -/

theorem exec_br (nzp : BitVec 3) (off9 : BitVec 9) :
    exec (.br nzp off9) s = .next (s.setPc (if taken nzp s.cond then s.pc + sext off9 else s.pc)) := by
  rw [exec, execBr, State.branch_eq]

theorem exec_nop : exec .nop s = .next (s.setPc s.pc) := by
  rw [exec, execNop, State.branch_never, State.setPc_self]

theorem exec_jmp (uHi : BitVec 3) (baseR : Reg) (uLo : BitVec 6) :
    exec (.jmp uHi baseR uLo) s = .next (s.setPc (s.getReg baseR)) := rfl

theorem exec_ret : exec .ret s = .next (s.setPc (s.getReg 7)) := rfl

theorem exec_jsr (off11 : BitVec 11) : exec (.jsr off11) s = .next (s.link.setPc (s.pc + sext off11)) := rfl

/-- BaseR is read from the linked state (41_control.md R164). -/
theorem exec_jsrr (uHi : BitVec 2) (baseR : Reg) (uLo : BitVec 6) :
    exec (.jsrr uHi baseR uLo) s = .next (s.link.setPc (s.link.getReg baseR)) := rfl

end Control

/-! BR and NOP. -/

/-- Settles O22: the test of BR is the mask bit of the flag (`taken_eq`), and NOP is the BR whose mask is 000. -/
theorem branchFollowsTheMaskBitOfCond : Obligations.BranchFollowsTheMaskBitOfCond := by
  unfold Obligations.BranchFollowsTheMaskBitOfCond
  intro nzp off9 s
  refine ⟨⟨_, exec_br s nzp off9, ?_, s.setPc_frame _⟩, _, exec_nop s, s.setPc_pc _, s.setPc_frame _⟩
  exact if_congr (Bool.eq_iff_iff.mp (taken_eq nzp s.cond)) rfl rfl

/-! JMP and RET. -/

/-- Settles O23. -/
theorem jumpGoesToTheBaseRegister : Obligations.JumpGoesToTheBaseRegister := by
  unfold Obligations.JumpGoesToTheBaseRegister
  intro uHi baseR uLo s
  exact ⟨⟨_, exec_jmp s uHi baseR uLo, s.setPc_pc _, s.setPc_frame _⟩, _, exec_ret s, s.setPc_pc _, s.setPc_frame _⟩

/-! JSR and JSRR. -/

/-- Settles O24. -/
theorem jsrLinksAndGoesToTheOffset : Obligations.JsrLinksAndGoesToTheOffset := by
  unfold Obligations.JsrLinksAndGoesToTheOffset
  intro off11 s
  exact ⟨_, exec_jsr s off11, s.link_setPc_effect _⟩

/-- Settles O25: the case BaseR = R7 is the read of R7 after the link (`State.link_getReg`). -/
theorem jsrrLinksBeforeReadingTheBase : Obligations.JsrrLinksBeforeReadingTheBase := by
  unfold Obligations.JsrrLinksBeforeReadingTheBase
  intro uHi baseR uLo s
  rw [← State.link_getReg]
  exact ⟨_, exec_jsrr s uHi baseR uLo, s.link_setPc_effect _⟩

end Sys2Proof.Machine
end

section
/-! PROOFS. LD, LDI, LDR, LEA, ST, STI and STR (42_load_store.md): the bus reads an instruction makes, then one write of DR or
of memory. -/

namespace Sys2Proof.Machine

/-! The two ends of an instruction after its bus reads: `Reads` gives what they leave alone. -/

theorem KeepsRun.trans {s u t : State} (h : KeepsRun s u) (h' : KeepsRun u t) : KeepsRun s t := by
  obtain ⟨hrun, hfault, hpending, hparams⟩ := h
  obtain ⟨hrun', hfault', hpending', hparams'⟩ := h'
  exact ⟨hrun'.trans hrun, hfault'.trans hfault, hpending'.trans hpending, hparams'.trans hparams⟩

section AfterReads
variable {s u : State} {l : List Word}

theorem Reads.keepsRun (h : Reads s l u) : KeepsRun s u :=
  ⟨h.frame.run, h.frame.fault, h.frame.pending, h.frame.params⟩

/-- The whole effect of a load: DR and the flags are written, memory and the input queue are those the reads leave. -/
theorem Reads.writeResult_effect (h : Reads s l u) (dr : Reg) (v : Word) :
    WritesResult s (u.writeResult dr v) dr v ∧ KeepsMem u (u.writeResult dr v)
      ∧ (u.writeResult dr v).consoleIn = u.consoleIn ∧ (u.writeResult dr v).pc = s.pc
      ∧ (u.writeResult dr v).consoleOut = s.consoleOut ∧ KeepsRun s (u.writeResult dr v) := by
  obtain ⟨⟨hvalue, hcond, hregs⟩, hpc, hmem, ⟨hin, hout⟩, hrun⟩ := u.writeResult_effect dr v
  exact ⟨⟨hvalue, hcond, fun r hr => (hregs r hr).trans (h.getReg r)⟩, hmem, hin, hpc.trans h.frame.pc,
    hout.trans h.frame.out, h.keepsRun.trans hrun⟩

/-- The whole effect of a store: one word of the memory the reads leave is written, and no register and no flag. -/
theorem Reads.busWrite_effect (h : Reads s l u) (a v : Word) :
    (∀ b : Word, (u.busWrite a v).rawRead b = if b = a then v else u.rawRead b)
      ∧ (u.busWrite a v).consoleIn = u.consoleIn ∧ (u.busWrite a v).pc = s.pc ∧ (u.busWrite a v).cond = s.cond
      ∧ KeepsRegs s (u.busWrite a v) [] ∧ (u.busWrite a v).consoleOut = s.consoleOut
      ∧ KeepsRun s (u.busWrite a v) := by
  obtain ⟨hmem, hpc, hcond, hregs, ⟨hin, hout⟩, hrun⟩ := memWriteStoresOneWord u a v
  exact ⟨hmem, hin, hpc.trans h.frame.pc, hcond.trans h.frame.cond, fun r hr => (hregs r hr).trans (h.getReg r),
    hout.trans h.frame.out, h.keepsRun.trans hrun⟩

end AfterReads

/-! What each instruction reads and writes. -/

section Exec
variable (r baseR : Reg) (off9 : BitVec 9) (off6 : BitVec 6) (s : State)

theorem exec_ld : exec (.ld r off9) s = .next (s.loadFrom r (s.pc + sext off9)) := rfl

theorem exec_ldi :
    exec (.ldi r off9) s
      = .next ((s.busRead (s.pc + sext off9)).2.loadFrom r (s.busRead (s.pc + sext off9)).1) := rfl

theorem exec_ldr : exec (.ldr r baseR off6) s = .next (s.loadFrom r (s.getReg baseR + sext off6)) := rfl

theorem exec_lea : exec (.lea r off9) s = .next (s.writeResult r (s.pc + sext off9)) := rfl

theorem exec_st : exec (.st r off9) s = .next (s.busWrite (s.pc + sext off9) (s.getReg r)) := rfl

theorem exec_sti :
    exec (.sti r off9) s
      = .next ((s.busRead (s.pc + sext off9)).2.busWrite (s.busRead (s.pc + sext off9)).1 (s.getReg r)) := rfl

theorem exec_str : exec (.str r baseR off6) s = .next (s.busWrite (s.getReg baseR + sext off6) (s.getReg r)) := rfl

end Exec

/-! The loads. -/

/-- Settles O26. -/
theorem ldLoadsFromThePcOffset : Obligations.LdLoadsFromThePcOffset := by
  unfold Obligations.LdLoadsFromThePcOffset
  intro dr off9 s
  exact ⟨_, exec_ld dr off9 s, (Reads.one _).writeResult_effect dr _⟩

/-- Settles O27: a pointer that came from KBSR is READY or 0, so of the two reads at most one polls (`exec_consoleStep`). -/
theorem ldiLoadsThroughThePointer : Obligations.LdiLoadsThroughThePointer := by
  unfold Obligations.LdiLoadsThroughThePointer
  intro dr off9 s
  have hexec := exec_ldi dr off9 s
  obtain ⟨hresult, hmem, hin, hrest⟩ := (Reads.two (s := s) (s.pc + sext off9)).writeResult_effect dr _
  exact ⟨_, _, _, hexec, rfl, hresult, hmem, hin, (exec_consoleStep hexec).input_cons, hrest⟩

/-- Settles O28. -/
theorem ldrLoadsFromTheBaseOffset : Obligations.LdrLoadsFromTheBaseOffset := by
  unfold Obligations.LdrLoadsFromTheBaseOffset
  intro dr baseR off6 s
  exact ⟨_, exec_ldr dr baseR off6 s, (Reads.one _).writeResult_effect dr _⟩

/-! LEA. -/

/-- Settles O29. -/
theorem leaWritesTheAddress : Obligations.LeaWritesTheAddress := by
  unfold Obligations.LeaWritesTheAddress
  intro dr off9 s
  exact ⟨_, exec_lea dr off9 s, s.writeResult_effect dr _⟩

/-! The stores. -/

/-- Settles O30. -/
theorem stStoresAtThePcOffset : Obligations.StStoresAtThePcOffset := by
  unfold Obligations.StStoresAtThePcOffset
  intro sr off9 s
  exact ⟨_, exec_st sr off9 s, memWriteStoresOneWord s _ _⟩

/-- Settles O31: SR is read before the pointer's bus read, which leaves the registers alone. -/
theorem stiStoresThroughThePointer : Obligations.StiStoresThroughThePointer := by
  unfold Obligations.StiStoresThroughThePointer
  intro sr off9 s
  exact ⟨_, _, _, exec_sti sr off9 s, rfl, (Reads.one _).busWrite_effect _ _⟩

/-- Settles O32. -/
theorem strStoresAtTheBaseOffset : Obligations.StrStoresAtTheBaseOffset := by
  unfold Obligations.StrStoresAtTheBaseOffset
  intro sr baseR off6 s
  exact ⟨_, exec_str sr baseR off6 s, memWriteStoresOneWord s _ _⟩

end Sys2Proof.Machine
end

section
/-! PROOFS. The words written out in 95_test_vectors.md. -/

namespace Sys2Proof.Machine

/-- Settles O3: each word is the encoding of its instruction, which is well-formed (`decode_of_encode`). -/
theorem specWordsDecodeAsWritten : Obligations.SpecWordsDecodeAsWritten := by
  unfold Obligations.SpecWordsDecodeAsWritten
  and_intros <;> exact decode_of_encode rfl rfl

end Sys2Proof.Machine
end

section
/-! PROOFS. TRAP: the link, the dispatch and the fatal vectors (43_trap.md R210, R212, R220, R222). -/

namespace Sys2Proof.Machine

/-! The link. -/

/-- The link writes R7 alone (10_state.md R31). -/
theorem State.link_keepsRegs (s : State) : KeepsRegs s s.link [7] := fun r hr => by
  rw [State.link_getReg, if_neg (List.ne_of_not_mem_cons hr)]

theorem State.link_getReg_zero (s : State) : s.link.getReg 0 = s.getReg 0 := s.link_keepsRegs 0 (by decide)

/-- A service's frame, with the link before it. -/
theorem ServiceFrame.keepsRegs {s t : State} (h : ServiceFrame s.link t) : KeepsRegs s t [0, 7] := fun r hr => by
  obtain ⟨h0, h7⟩ := List.ne_and_not_mem_of_not_mem_cons hr
  rw [h.regs r h0, s.link_keepsRegs r h7]

theorem ServiceFrame.keepsMem {s t : State} (h : ServiceFrame s t) : KeepsMem s t := fun a => by
  rw [State.rawRead, h.mem, State.rawRead]

/-- What every TRAP leaves alone, and the link it keeps, whatever its vector (43_trap.md R212, R222). -/
theorem exec_trap_frame {i : Instr} {s t : State} {v : BitVec 8} (h : exec i s = .next t) (hv : trapVector i = some v) :
    KeepsMem s t ∧ t.pc = s.pc ∧ t.getReg 7 = s.pc ∧ KeepsRegs s t [0, 7] ∧ t.params = s.params := by
  cases exec_effect h with
  | service v' p hd hv' hl hs hp ht =>
    obtain ⟨hframe, -⟩ := s.serve_frame p
    rw [← ht] at hframe
    exact ⟨hframe.keepsMem, hframe.pc, exec_link h hl, hframe.keepsRegs, hframe.params⟩
  | badVector u v' hi hp ht =>
    subst hi ht
    exact ⟨fun _ => rfl, rfl, exec_link h rfl,
      fun r hr => s.link_keepsRegs r (List.ne_and_not_mem_of_not_mem_cons hr).2, rfl⟩
  | _ => cases hv.symm.trans ‹trapVector i = none›

/-! The dispatch. -/

/-- A vector from 0x20 to 0x25 runs its service after the link, by TRAP's name or by the service's own (43_trap.md R210). -/
theorem exec_service {i : Instr} {s t : State} {v : BitVec 8} (h : exec i s = .next t) (hv : trapVector i = some v)
    (hlo : 0x20 ≤ v.toNat) (hhi : v.toNat ≤ 0x25) : ∃ p, serviceOf v = some p ∧ t = s.link.serve p := by
  cases exec_effect h with
  | service v' p hd hv' hl hs hp ht =>
    obtain rfl : v' = v := Option.some.inj (hv'.symm.trans hv)
    exact ⟨p, hp, ht⟩
  | badVector u v' hi hp ht =>
    subst hi
    obtain rfl : v' = v := Option.some.inj hv
    have hout := (serviceOf_eq_none_iff v').1 hp
    omega
  | _ => cases hv.symm.trans ‹trapVector i = none›

/-- Settles O34: every TRAP keeps the link (`exec_trap_frame`), and a service's own word runs as TRAP with its vector. -/
theorem trapLinksAndDispatches : Obligations.TrapLinksAndDispatches := by
  unfold Obligations.TrapLinksAndDispatches
  intro u v s
  obtain ⟨t, h⟩ := exec_total (.trap u v) s
  obtain ⟨hmem, hpc, hseven, hregs, -⟩ := exec_trap_frame h rfl
  obtain ⟨-, -, -, -, -, -, -, hgetc, hout, hputs, hin, hputsp, hhalt⟩ :=
    unusedBitsAndAliasesDoNotChangeExecution s 0 0 0 0 0 u 0 0
  exact ⟨t, h, hseven, hpc, hmem, hregs, fun hv => by rw [← hgetc, ← hv, h], fun hv => by rw [← hout, ← hv, h],
    fun hv => by rw [← hputs, ← hv, h], fun hv => by rw [← hin, ← hv, h], fun hv => by rw [← hputsp, ← hv, h],
    fun hv => by rw [← hhalt, ← hv, h]⟩

/-! The unrecognized vectors. -/

theorem exec_trap_of_no_service (u : BitVec 4) {v : BitVec 8} (h : serviceOf v = none) (s : State) :
    exec (.trap u v) s = .next (s.link.raiseTrap (encode (.trap u v)) v) := by
  rw [exec, execTrap, h]

/-- Settles O43: the error is raised in the linked state, whose `pc` is one past the word's address. -/
theorem unknownVectorIsFatalAfterTheLink : Obligations.UnknownVectorIsFatalAfterTheLink := by
  unfold Obligations.UnknownVectorIsFatalAfterTheLink
  intro u v s hv
  have h := exec_trap_of_no_service u ((serviceOf_eq_none_iff v).2 hv) s
  obtain ⟨hmem, hpc, hseven, -⟩ := exec_trap_frame h rfl
  exact ⟨_, h, rfl, rfl, hseven, s.link_keepsRegs, hpc, rfl, hmem, rfl, rfl⟩

end Sys2Proof.Machine
end

section
/-! PROOFS. GETC and IN: the blocking reads after the link (43_trap.md R213, R217; 10_state.md R50). -/

namespace Sys2Proof.Machine

/-- GETC echoes nothing, held or not. -/
theorem State.readGetc_consoleOut (s : State) : s.readGetc.consoleOut = s.consoleOut := by
  cases hc : s.consoleIn with
  | nil => rw [State.readGetc_nil hc, State.setPending_consoleOut]
  | cons b rest => rw [State.readGetc_cons hc, State.writeResult_consoleOut]

/-- A character read into R0: the byte's own number, and a flag that is never N (43_trap.md R213). -/
theorem State.writeResult_zext (s : State) (r : Reg) (b : Byte) :
    ((s.writeResult r (zext b)).getReg r).toNat = b.toNat
      ∧ (s.writeResult r (zext b)).cond = if b = 0x00#8 then .z else .p := by
  rw [State.writeResult_getReg_same, zext_toNat, State.writeResult_cond, condOf_zext]
  exact ⟨rfl, rfl⟩

theorem exec_getc (s : State) : exec .getc s = .next s.link.readGetc := rfl

theorem exec_inEcho (s : State) : exec .inEcho s = .next (s.link.consoleWrite s.params.promptText).readEcho := rfl

/-- Settles O35, by whether a byte waits: R7 is written before the read, R0 and the flags only by its end. -/
theorem getcReadsOneByteOrIsHeld : Obligations.GetcReadsOneByteOrIsHeld := by
  unfold Obligations.GetcReadsOneByteOrIsHeld
  intro s
  obtain ⟨hmem, hpc, hseven, hregs, hparams⟩ := exec_trap_frame (exec_getc s) rfl
  obtain ⟨hframe, hrun, -⟩ := s.link.readGetc_frame
  refine ⟨_, exec_getc s, hseven, hpc, hmem, s.link.readGetc_consoleOut, hrun, hframe.fault, hparams, ?_⟩
  cases hc : s.consoleIn with
  | nil =>
    rw [State.readGetc_nil (s := s.link) hc]
    exact ⟨hc, s.link_keepsRegs, rfl, rfl⟩
  | cons b rest =>
    rw [State.readGetc_cons (s := s.link) hc] at hregs ⊢
    obtain ⟨hzero, hcond⟩ := State.writeResult_zext { s.link with consoleIn := rest } 0 b
    exact ⟨rfl, hregs, hzero, hcond, rfl⟩

/-- Settles O40: as GETC's, in the state that has the prompt written. -/
theorem inPromptsReadsAndEchoes : Obligations.InPromptsReadsAndEchoes := by
  unfold Obligations.InPromptsReadsAndEchoes
  intro s
  obtain ⟨hmem, hpc, hseven, hregs, hparams⟩ := exec_trap_frame (exec_inEcho s) rfl
  obtain ⟨hframe, hrun, -⟩ := (s.link.consoleWrite s.params.promptText).readEcho_frame
  refine ⟨_, exec_inEcho s, hseven, hpc, hmem, hrun, hframe.fault, hparams, ?_⟩
  cases hc : s.consoleIn with
  | nil =>
    rw [State.readEcho_nil (s := s.link.consoleWrite s.params.promptText) hc]
    exact ⟨hc, rfl, s.link_keepsRegs, rfl, rfl⟩
  | cons b rest =>
    rw [State.readEcho_cons (s := s.link.consoleWrite s.params.promptText) hc] at hregs ⊢
    obtain ⟨hzero, hcond⟩ := State.writeResult_zext
      (({ s.link.consoleWrite s.params.promptText with consoleIn := rest } : State).consoleWrite [b]) 0 b
    exact ⟨rfl, rfl, hregs, hzero, hcond, rfl⟩

end Sys2Proof.Machine
end

section
/-! PROOFS. OUT, PUTS, PUTSP and HALT: console output after the link (43_trap.md R214 to R216, R218, R219). -/

namespace Sys2Proof.Machine

/-- The whole effect of console output after the link: R7 alone among the registers, and no flag. -/
theorem State.link_consoleWrite_effect (s : State) (bs : List Byte) :
    (s.link.consoleWrite bs).consoleOut = s.consoleOut ++ bs ∧ (s.link.consoleWrite bs).consoleIn = s.consoleIn
      ∧ (s.link.consoleWrite bs).getReg 7 = s.pc ∧ KeepsRegs s (s.link.consoleWrite bs) [7]
      ∧ (s.link.consoleWrite bs).pc = s.pc ∧ (s.link.consoleWrite bs).cond = s.cond
      ∧ KeepsMem s (s.link.consoleWrite bs) ∧ KeepsRun s (s.link.consoleWrite bs) :=
  ⟨rfl, rfl, s.link_getReg_seven, s.link_keepsRegs, rfl, rfl, fun _ => rfl, rfl, rfl, rfl, rfl⟩

/-! OUT and HALT. -/

theorem exec_out (s : State) : exec .out s = .next (s.link.consoleWrite [lowByte (s.getReg 0)]) := by
  rw [← s.link_getReg_zero]; rfl

theorem exec_halt (s : State) : exec .halt s = .next ((s.link.consoleWrite s.params.haltText).setRun .halted) := rfl

/-- Settles O36. -/
theorem outWritesTheLowByte : Obligations.OutWritesTheLowByte := by
  unfold Obligations.OutWritesTheLowByte
  intro s
  exact ⟨_, exec_out s, s.link_consoleWrite_effect _⟩

/-- Settles O42: HALT_TEXT is written as any other output, and the move to HALTED touches no other field. -/
theorem haltStopsTheMachine : Obligations.HaltStopsTheMachine := by
  unfold Obligations.HaltStopsTheMachine
  intro s
  obtain ⟨hout, hin, hseven, hregs, hpc, hcond, hmem, -, hfault, hpending, hparams⟩ :=
    s.link_consoleWrite_effect s.params.haltText
  exact ⟨_, exec_halt s, State.setRun_run _ _, hout, hin, hseven, hregs, hpc, hcond, hmem, hfault, hpending, hparams⟩

/-! PUTS and PUTSP over a string that ends. -/

theorem exec_puts (s : State) : exec .puts s = .next (s.link.writeString putsBytes .puts) := rfl

theorem exec_putsp (s : State) : exec .putsp s = .next (s.link.writeString putspBytes .putsp) := rfl

/-- A string service after the link writes its string up to the zero word, and is finished (43_trap.md R215, R218). -/
theorem State.link_writeString_string {s : State} (emit : Word → List Byte) (p : Pending) {ws : List Word}
    (hz : ∀ w ∈ ws, w ≠ 0x0000#16) (hlen : ws.length < 65536)
    (hw : ∀ k (h : k < ws.length), s.rawRead (s.getReg 0 + BitVec.ofNat 16 k) = ws[k])
    (he : s.rawRead (s.getReg 0 + BitVec.ofNat 16 ws.length) = 0x0000#16) :
    s.link.writeString emit p = s.link.consoleWrite (ws.flatMap emit) := by
  rw [← s.link_getReg_zero] at hw he
  exact State.writeString_ended (s.link.walk_string emit Config.memWords ws (s.link.getReg 0) hlen hz hw he)

/-- PUTS writes a byte a word (43_trap.md R215). -/
theorem flatMap_putsBytes (ws : List Word) : ws.flatMap putsBytes = ws.map fun w => w.extractLsb' 0 8 :=
  List.map_eq_flatMap.symm

/-- PUTSP writes the low byte always and the high byte unless it is zero (43_trap.md R218). -/
theorem putspBytes_eq (w : Word) :
    putspBytes w = w.extractLsb' 0 8 :: (if w.extractLsb' 8 8 = 0x00#8 then [] else [w.extractLsb' 8 8]) :=
  (apply_ite (List.cons (lowByte w)) _ _ _).symm

/-- Settles O37: the walk reads raw, so the string may lie anywhere (`State.walk_string`). -/
theorem putsWritesUpToTheZeroWord : Obligations.PutsWritesUpToTheZeroWord := by
  unfold Obligations.PutsWritesUpToTheZeroWord
  intro s ws hz hlen hw he
  have h := exec_puts s
  rw [State.link_writeString_string putsBytes .puts hz hlen hw he, flatMap_putsBytes] at h
  exact ⟨_, h, s.link_consoleWrite_effect _⟩

/-- Settles O38, as O37 with PUTSP's bytes. -/
theorem putspWritesPackedUpToTheZeroWord : Obligations.PutspWritesPackedUpToTheZeroWord := by
  unfold Obligations.PutspWritesPackedUpToTheZeroWord
  intro s ws hz hlen hw he
  have h := exec_putsp s
  rw [State.link_writeString_string putspBytes .putsp hz hlen hw he, funext putspBytes_eq] at h
  exact ⟨_, h, s.link_consoleWrite_effect _⟩

/-! PUTS and PUTSP over a memory with no zero word. -/

/-- The walk meets no zero word, so the service writes a byte a word at least and stays inside itself (43_trap.md R216). -/
theorem State.writeString_endless {s : State} {emit : Word → List Byte} (p : Pending)
    (hz : ∀ a : Word, s.rawRead a ≠ 0x0000#16) (hemit : ∀ w, 1 ≤ (emit w).length) :
    ∃ bs, s.writeString emit p = (s.consoleWrite bs).setPending (some p) ∧ 65536 ≤ bs.length := by
  obtain ⟨hopen, hlen⟩ := s.walk_endless emit Config.memWords (s.getReg 0) hz hemit
  refine ⟨_, ?_, hlen⟩
  rw [State.writeString, hopen, if_neg Bool.false_ne_true]

/-- Going on inside such a walk changes nothing but the console's output. -/
theorem State.resume_endless {s : State} {p : Pending} (hp : p = .puts ∨ p = .putsp) (hpend : s.pending = some p)
    (hz : ∀ a : Word, s.rawRead a ≠ 0x0000#16) : ∃ bs, s.resume p = s.consoleWrite bs ∧ 65536 ≤ bs.length := by
  have hback (bs : List Byte) : ((s.setPending none).consoleWrite bs).setPending (some p) = s.consoleWrite bs := by
    rw [← hpend]; rfl
  obtain rfl | rfl := hp
  · obtain ⟨bs, hw, hlen⟩ := State.writeString_endless (s := s.setPending none) .puts hz putsBytes_length
    exact ⟨bs, hw.trans (hback bs), hlen⟩
  · obtain ⟨bs, hw, hlen⟩ := State.writeString_endless (s := s.setPending none) .putsp hz putspBytes_length
    exact ⟨bs, hw.trans (hback bs), hlen⟩

/-- Settles O39: a round over the whole memory meets no zero word, at the start of the walk and at every later step. -/
theorem walkWithNoZeroWordNeverEnds : Obligations.WalkWithNoZeroWordNeverEnds := by
  unfold Obligations.WalkWithNoZeroWordNeverEnds
  intro s hz hr
  refine ⟨?_, ?_, fun hpend => ?_⟩
  · obtain ⟨bs, hw, -⟩ := State.writeString_endless (s := s.link) .puts hz putsBytes_length
    exact ⟨_, exec_puts s, by rw [hw, State.setPending_pending]⟩
  · obtain ⟨bs, hw, -⟩ := State.writeString_endless (s := s.link) .putsp hz putspBytes_length
    exact ⟨_, exec_putsp s, by rw [hw, State.setPending_pending]⟩
  · obtain ⟨p, hp, hpend⟩ : ∃ p, (p = .puts ∨ p = .putsp) ∧ s.pending = some p :=
      hpend.elim (fun h => ⟨_, .inl rfl, h⟩) (fun h => ⟨_, .inr rfl, h⟩)
    obtain ⟨bs, hw, hlen⟩ := State.resume_endless hp hpend hz
    have hstep := step_of_pending hr hpend
    rw [hw] at hstep
    exact ⟨_, hstep, rfl, hr, rfl, fun _ _ => rfl, fun _ => rfl, bs, rfl, hlen⟩

end Sys2Proof.Machine
end

section
/-! PROOFS. What the six services leave unchanged (43_trap.md R212, R216). -/

namespace Sys2Proof.Machine

/-- Settles O33: every TRAP's frame, then what the service's own rule adds to it, by which service the vector names. -/
theorem servicesChangeOnlyWhatTheyName : Obligations.ServicesChangeOnlyWhatTheyName := by
  unfold Obligations.ServicesChangeOnlyWhatTheyName
  intro i s t v hv hlo hhi h
  obtain ⟨hmem, hpc, hseven, hregs, hparams⟩ := exec_trap_frame h hv
  obtain ⟨p, hp, rfl⟩ := exec_service h hv hlo hhi
  obtain ⟨hframe, hrun, -⟩ := s.serve_frame p
  refine ⟨hmem, hpc, hseven, hregs, fun hgetc hin => ?_, hframe.fault, hparams, fun hhalt => ?_, fun hgetc => ?_⟩
  · have hne : p ≠ .getc := by rintro rfl; exact hgetc (serviceOf_getc hp)
    have hne' : p ≠ .inEcho := by rintro rfl; exact hin (serviceOf_inEcho hp)
    obtain ⟨hsame, hcond, hinput⟩ := s.serve_quiet hne hne'
    refine ⟨?_, hcond, hinput⟩
    rw [← s.link_getReg_zero, State.getReg, hsame, State.getReg]
  · have hne : p ≠ .halt := by rintro rfl; exact hhalt (serviceOf_halt hp)
    rw [hrun, if_neg hne]
  · subst hgetc
    obtain rfl : Service.getc = p := Option.some.inj hp
    exact s.link.readGetc_consoleOut

end Sys2Proof.Machine
end

section
/-! PROOFS. RTI and RES (44_unimplemented.md R240, R241): each raises FatalDecodeError for its own word, bits 11 to 0 included. -/

namespace Sys2Proof.Machine

/-- The whole effect of FatalDecodeError: the run state and the record are written, and nothing else (60_exceptions.md R252,
R253). -/
theorem State.raiseDecode_effect (s : State) (w : Word) :
    (s.raiseDecode w).run = .faultDecode ∧ (s.raiseDecode w).fault = some ⟨.decode, w, s.pc - 1#16, 0x00#8⟩
      ∧ (s.raiseDecode w).pc = s.pc ∧ (s.raiseDecode w).cond = s.cond ∧ KeepsRegs s (s.raiseDecode w) []
      ∧ KeepsMem s (s.raiseDecode w) ∧ KeepsConsole s (s.raiseDecode w) :=
  ⟨rfl, rfl, rfl, rfl, fun _ _ => rfl, fun _ => rfl, rfl, rfl⟩

theorem exec_rti (x : BitVec 12) (s : State) : exec (.rti x) s = .next (s.raiseDecode (0x8#4 ++ x)) := rfl

theorem exec_res (x : BitVec 12) (s : State) : exec (.res x) s = .next (s.raiseDecode (0xD#4 ++ x)) := rfl

/-- Settles O44: the word recorded is the instruction's encoding, and raising the error is all that either does. -/
theorem rtiAndResAreFatalAtDecode : Obligations.RtiAndResAreFatalAtDecode := by
  unfold Obligations.RtiAndResAreFatalAtDecode
  intro x s
  exact ⟨⟨_, exec_rti x s, s.raiseDecode_effect _⟩, _, exec_res x s, s.raiseDecode_effect _⟩

end Sys2Proof.Machine
end

section
/-! PROOFS. The one cause of FatalTrapError (60_exceptions.md R251). -/

namespace Sys2Proof.Machine

/-- A TRAP with a vector outside 0x20 to 0x25 ends in FAULT_TRAP (43_trap.md R220). -/
theorem exec_run_of_bad_vector {i : Instr} {s t : State} {v : BitVec 8} (h : exec i s = .next t)
    (hv : trapVector i = some v) (hout : v.toNat < 0x20 ∨ 0x25 < v.toNat) : t.run = .faultTrap := by
  cases exec_effect h with
  | service v' p hd hv' hl hs hp ht =>
    obtain rfl : v' = v := Option.some.inj (hv'.symm.trans hv)
    cases hp.symm.trans ((serviceOf_eq_none_iff v').2 hout)
  | badVector u v' hi hp ht => subst ht; rfl
  | _ => cases hv.symm.trans ‹trapVector i = none›

/-- Settles O52: of the ways `exec` leaves RUNNING, the bad vector alone ends in FAULT_TRAP, and a bad vector always does. -/
theorem fatalTrapErrorHasOneCause : Obligations.FatalTrapErrorHasOneCause := by
  unfold Obligations.FatalTrapErrorHasOneCause
  intro i s t hr h
  refine ⟨fun ht => ?_, fun ⟨v, hv, hout⟩ => exec_run_of_bad_vector h hv hout⟩
  obtain hsame | ⟨hend, -⟩ | ⟨hend, -⟩ | ⟨-, hcause⟩ := exec_run_cases h
  · cases ht.symm.trans (hsame.trans hr)
  · cases ht.symm.trans hend
  · cases ht.symm.trans hend
  · exact hcause

end Sys2Proof.Machine
end

section
/-! PROOFS. The host's moves (60_exceptions.md R270, R272), and what every schedule of moves and steps keeps (R263). -/

namespace Sys2Proof.Machine

/-! The two moves. -/

theorem State.deliver_eq_some_iff {s t : State} {b : Byte} :
    s.deliver b = some t ↔ s.run = .running ∧ t = { s with consoleIn := s.consoleIn ++ [b] } := by
  rw [State.deliver, Option.ite_none_right_eq_some, Option.some_inj, eq_comm (b := t)]

theorem State.terminate_eq_some_iff {s t : State} :
    s.terminate = some t ↔
      (s.run = .running ∧ s.interruptible = true) ∧ t = (s.setRun .terminated).setPending none := by
  rw [State.terminate, Option.ite_none_right_eq_some, Option.some_inj, eq_comm (b := t)]

theorem State.interruptible_iff (s : State) :
    s.interruptible = true ↔ s.pending ≠ some .puts ∧ s.pending ≠ some .putsp := by
  unfold State.interruptible
  split <;> simp [*]

/-- Settles O57. -/
theorem hostDeliversOrTerminates : Obligations.HostDeliversOrTerminates := by
  unfold Obligations.HostDeliversOrTerminates
  intro s b hr
  refine ⟨State.deliver_eq_some_iff.2 ⟨hr, rfl⟩, fun hputs hputsp => ?_, fun hwalk => ?_⟩
  · have hint := s.interruptible_iff.2 ⟨hputs, hputsp⟩
    exact ⟨_, State.terminate_eq_some_iff.2 ⟨⟨hr, hint⟩, rfl⟩, rfl, rfl, rfl, fun _ _ => rfl, fun _ => rfl, rfl, rfl⟩
  · refine Option.eq_none_iff_forall_ne_some.2 fun t ht => ?_
    obtain ⟨⟨-, hint⟩, -⟩ := State.terminate_eq_some_iff.1 ht
    obtain ⟨hputs, hputsp⟩ := s.interruptible_iff.1 hint
    exact hwalk.elim hputs hputsp

/-! What a step and an event keep. -/

theorem exec_params {i : Instr} {s t : State} (h : exec i s = .next t) : t.params = s.params := by
  cases exec_effect h with
  | result dr u v hd hv hl hs hu ht => subst ht; exact hu.frame.params
  | store a v u hd hv hl hs hu ht => subst ht; exact hu.frame.params
  | goto v hd hv hl hs ht => subst ht; rfl
  | call v hd hv hl hs ht => subst ht; rfl
  | service v p hd hv hl hs hp ht => subst ht; exact (s.serve_frame p).1.params
  | badVector u v hi hp ht => subst ht; rfl
  | fatal hd hv hl hs hf ht => subst ht; rfl

theorem step_params {s t : State} (h : step s = .next t) : t.params = s.params := by
  obtain ⟨-, ⟨p, -, rfl⟩ | ⟨-, i, -, hexec⟩ | ⟨-, -, rfl⟩⟩ := step_next_cases h
  · exact (s.resume_frame p).1.params
  · exact (exec_params hexec).trans (fetch_params s)
  · exact fetch_params s

/-- Bytes waiting are no part of the invariant. -/
theorem State.deliver_inv {s t : State} {b : Byte} (hinv : s.Inv) (h : s.deliver b = some t) : t.Inv := by
  obtain ⟨-, rfl⟩ := State.deliver_eq_some_iff.1 h
  exact hinv

/-- TERMINATED asks for no fault record, and a RUNNING core has none (10_state.md R41). -/
theorem State.terminate_inv {s t : State} (hinv : s.Inv) (h : s.terminate = some t) : t.Inv := by
  obtain ⟨⟨hrun, -⟩, rfl⟩ := State.terminate_eq_some_iff.1 h
  exact State.inv_of_boundary hinv.1 rfl (hinv.fault_of_running hrun)

theorem State.apply_inv {s t : State} {e : Event} (hinv : s.Inv) (h : s.apply e = some t) : t.Inv := by
  cases e with
  | core => exact stepKeepsTheInvariant s t hinv (State.apply_core_iff.1 h)
  | deliver b => exact State.deliver_inv hinv h
  | terminate => exact State.terminate_inv hinv h

/-- No event changes the parameters, and the host's moves write nothing to the console. -/
theorem State.apply_params_out {s t : State} {e : Event} (h : s.apply e = some t) :
    t.params = s.params ∧ ∃ bs, t.consoleOut = s.consoleOut ++ bs := by
  cases e with
  | core =>
    have hstep := State.apply_core_iff.1 h
    exact ⟨step_params hstep, (step_consoleStep hstep).out⟩
  | deliver b =>
    obtain ⟨-, rfl⟩ := State.deliver_eq_some_iff.1 h
    exact ⟨rfl, [], (List.append_nil _).symm⟩
  | terminate =>
    obtain ⟨-, rfl⟩ := State.terminate_eq_some_iff.1 h
    exact ⟨rfl, [], (List.append_nil _).symm⟩

/-! Schedules. -/

theorem State.runEvents_cons_iff {s t : State} {e : Event} {es : List Event} :
    s.runEvents (e :: es) = some t ↔ ∃ u, s.apply e = some u ∧ u.runEvents es = some t := by
  rw [State.runEvents]
  cases s.apply e <;> simp

/-- Settles O50, by induction on the schedule: every event keeps the invariant and the parameters, and only appends output. -/
theorem everyScheduleKeepsTheInvariant : Obligations.EveryScheduleKeepsTheInvariant := by
  unfold Obligations.EveryScheduleKeepsTheInvariant
  intro es
  induction es with
  | nil =>
    intro s t hinv h
    obtain rfl : s = t := Option.some.inj h
    exact ⟨hinv, rfl, [], (List.append_nil _).symm⟩
  | cons e es ih =>
    intro s t hinv h
    obtain ⟨u, he, hes⟩ := State.runEvents_cons_iff.1 h
    obtain ⟨hparams, bs, hout⟩ := State.apply_params_out he
    obtain ⟨hinv', hparams', bs', hout'⟩ := ih u t (State.apply_inv hinv he) hes
    exact ⟨hinv', hparams'.trans hparams, bs ++ bs', by rw [hout', hout, List.append_assoc]⟩

end Sys2Proof.Machine
end

section
/-! PROOFS. Loading an image (70_reset_and_hazards.md R293; 92_eei_decisions.md D18) and the rest of the reset state (R290,
R291). -/

namespace Sys2Proof.Machine

/-! The words of an image: its bytes, read big-endian. -/

/-- The bytes `hi` and `lo` of a word give the word back. -/
theorem imageWords_word_bytes (w : Word) (rest : List Byte) :
    imageWords (w.extractLsb' 8 8 :: w.extractLsb' 0 8 :: rest) = w :: imageWords rest := by
  have hw : w.extractLsb' 8 8 ++ w.extractLsb' 0 8 = w :=
    eq_iff_eq_extractLsb'.2 (append_eq_extractLsb'_iff.2 ⟨rfl, rfl⟩)
  exact congrArg (· :: imageWords rest) hw

/-- Fewer than two bytes hold no word: an odd last byte is ignored. -/
theorem imageWords_of_length_le_one {bs : List Byte} (h : bs.length ≤ 1) : imageWords bs = [] := by
  match bs, h with
  | [], _ => rfl
  | [_], _ => rfl

theorem imageWords_flatMap_bytes_append (ws : List Word) {tail : List Byte} (h : tail.length ≤ 1) :
    imageWords (ws.flatMap (fun w => [w.extractLsb' 8 8, w.extractLsb' 0 8]) ++ tail) = ws := by
  induction ws with
  | nil => exact imageWords_of_length_le_one h
  | cons w ws ih => exact (imageWords_word_bytes w _).trans (congrArg (w :: ·) ih)

/-! Memory after the words are placed, at every address of the space. -/

/-- The cut at 0xFFFF leaves the write in force at every address below MEM_WORDS. -/
theorem read_guarded_write (m : Memory) (a : Nat) (w : Word) {b : Nat} (hb : b < Config.memWords) :
    Memory.read (if a < Config.memWords then Memory.write m a w else m) b = if b = a then w else Memory.read m b := by
  split
  · exact Memory.read_write m a b w
  · rw [if_neg (by omega)]

theorem placeWords_read_below (ws : List Word) {a b : Nat} (m : Memory) (hb : b < Config.memWords) (h : b < a) :
    Memory.read (placeWords a ws m) b = Memory.read m b := by
  induction ws generalizing a m with
  | nil => rfl
  | cons w ws ih => rw [placeWords, ih _ (by omega), read_guarded_write m a w hb, if_neg (by omega)]

/-- At the origin and above it, the word at that place of the list, and what was there where the list has ended. -/
theorem placeWords_read_add (ws : List Word) {a i : Nat} (m : Memory) (hb : a + i < Config.memWords) :
    Memory.read (placeWords a ws m) (a + i) = ws[i]?.getD (Memory.read m (a + i)) := by
  induction ws generalizing a i m with
  | nil => rfl
  | cons w ws ih =>
    rw [placeWords]
    cases i with
    | zero =>
      rw [placeWords_read_below ws _ hb (Nat.lt_succ_self a), read_guarded_write m a w hb,
        if_pos (Nat.add_zero a)]
      rfl
    | succ i =>
      have hsucc : a + (i + 1) = a + 1 + i := by omega
      rw [hsucc] at hb ⊢
      rw [ih _ hb, read_guarded_write m a w hb, if_neg (by omega), List.getElem?_cons_succ]

theorem placeWords_read (ws : List Word) (a : Nat) (m : Memory) {b : Nat} (hb : b < Config.memWords) :
    Memory.read (placeWords a ws m) b
      = if h : a ≤ b ∧ b - a < ws.length then ws[b - a]'h.2 else Memory.read m b := by
  rcases Nat.lt_or_ge b a with hlt | hge
  · rw [placeWords_read_below ws m hb hlt, dif_neg (by omega)]
  · obtain ⟨i, rfl⟩ := Nat.exists_eq_add_of_le hge
    rw [placeWords_read_add ws m hb]
    simp only [hge, true_and, Nat.add_sub_cancel_left]
    split
    · rw [List.getElem?_eq_getElem ‹_›, Option.getD_some]
    · rw [List.getElem?_eq_none (by omega), Option.getD_none]

/-- An image with an origin word loads: the words after it are placed from it. -/
theorem loadImage_of_imageWords {image : List Byte} {origin : Word} {ws : List Word} (m : Memory)
    (h : imageWords image = origin :: ws) : loadImage m image = some (placeWords origin.toNat ws m) := by
  rw [loadImage, h]

/-- Settles O47: the bytes are the words' own, and placing the words gives memory at every address. -/
theorem loadPlacesTheWordsFromTheOrigin : Obligations.LoadPlacesTheWordsFromTheOrigin := by
  unfold Obligations.LoadPlacesTheWordsFromTheOrigin
  intro m origin ws tail htail
  exact ⟨_, loadImage_of_imageWords m (imageWords_flatMap_bytes_append (origin :: ws) htail),
    fun _ ha => placeWords_read ws origin.toNat m ha⟩

/-! The reset state. -/

theorem State.reset_getReg (r : Reg) : State.reset.getReg r = 0x0000#16 := Vector.getElem_replicate r.isLt

theorem State.reset_rawRead (a : Word) : State.reset.rawRead a = 0x0000#16 := rfl

/-- Settles O46: the fields are reset's own, and a launch is reset over another memory. -/
theorem resetStateIsAsListed : Obligations.ResetStateIsAsListed := by
  unfold Obligations.ResetStateIsAsListed
  exact ⟨State.reset_getReg, State.reset_rawRead, rfl, rfl, rfl, rfl, rfl, fun _ _ => State.launch_eq⟩

end Sys2Proof.Machine
end
